-- ==== Sys2Proof/Word.lean ====
section
/-! DEFINITION. The byte, the block's only datum (00_scope.md R9), and the words of its ports. -/

namespace Sys2Proof

/-- A byte is 8 bits: "every input byte, declared length and stored value is one byte" (R9). -/
abbrev Byte := BitVec 8

/-- A 10-bit port word: DES_CTRL, DES_RD and ACC_CTRL (30_encoding.md R57, R58, R59). -/
abbrev Word10 := BitVec 10

end Sys2Proof
end

