-- ==== Sys2Proof/Syntax.lean ====
section
/-! DEFINITION. The operations of the two blocks as terms: one constructor of `Instr` per row of
spec/opcode_table.json, and the assembly lines and pseudo-instructions of 30_encoding.md R70 and R71. -/

namespace Sys2Proof

/-- The fields, in wire order (00_scope.md R13). -/
inductive Field where
  | a
  | b
  | c
  deriving DecidableEq, Repr

/-- What the 2-bit code `rd_field` selects: a field, or nothing for the reserved code 0b11 (30_encoding.md R63). -/
inductive FieldSel where
  | a
  | b
  | c
  | reserved
  deriving DecidableEq, Repr

/-- One interface operation, applied in one clock cycle (00_scope.md R2). -/
inductive Instr where
  /-- `ADV b`: present one byte to the deserializer (41_frame_deserializer.md R79). -/
  | adv (b : Byte)
  /-- `RST`: return the deserializer to its constructed state (R84). -/
  | rst
  /-- `IDLE`: a deserializer cycle with neither reset nor a byte (R83). -/
  | idle
  /-- `RD f, i`: read one byte of a completed frame's field (R86). -/
  | rd (f : FieldSel) (i : Byte)
  /-- `ACC.FEED b`: feed one byte to the stand-alone accumulator (40_field_accumulator.md R72). -/
  | accFeed (b : Byte)
  /-- `ACC.CLEAR`: return the stand-alone accumulator to its empty state (R75). -/
  | accClear
  /-- `ACC.IDLE`: an accumulator cycle with no feed and no clear (R74). -/
  | accIdle
  /-- `ACC.RD i`: read one stored value byte of the stand-alone accumulator (R76). -/
  | accRd (i : Byte)
  deriving DecidableEq, Repr

/-- A control operation of the deserializer as a line of a stimulus writes it (30_encoding.md R70). -/
inductive DesOp where
  | rst
  | adv (b : Byte)
  | idle
  deriving DecidableEq, Repr

/-- One line of a stimulus, one cycle, in the assembly form of 30_encoding.md R70. `desWithRead` is the
form `<op> | RD <f>, <i>`. -/
inductive AsmLine where
  | des (op : DesOp)
  | rd (f : FieldSel) (i : Byte)
  | desWithRead (op : DesOp) (f : FieldSel) (i : Byte)
  | accFeed (b : Byte)
  | accClear
  | accIdle
  | accRd (i : Byte)
  deriving DecidableEq, Repr

/-- The pseudo-instructions of 30_encoding.md R71. -/
inductive Pseudo where
  | advs (bytes : List Byte)
  | field (values : List Byte)
  | frame (as bs cs : List Byte)
  | wait (k : Nat)
  | rdn (X : Field) (n : Nat)
  deriving DecidableEq, Repr

end Sys2Proof
end

