-- ==== Sys2Proof/WellFormed.lean ====
section
/-! DEFINITION. Which terms stand for something that can be presented. Every operand of `Instr` is typed by the
width of its port, and "no control word is illegal or reserved" (30_encoding.md R68), so every `Instr` is
well formed; a pseudo-instruction has the bounds of R71. -/

namespace Sys2Proof

/-- Every operation of the opcode table is well formed with every operand (30_encoding.md R64, R65, R68):
the reserved field code is an operand like another (R63). -/
def Instr.wellFormed : Instr → Bool
  | .adv _ => true
  | .rst => true
  | .idle => true
  | .rd _ _ => true
  | .accFeed _ => true
  | .accClear => true
  | .accIdle => true
  | .accRd _ => true

/-- "Each list has at most 255 elements, because the length is one byte; a longer list has no expansion" (R71).
`ADVS` names at least its first byte b0; `RDN X, n` reads indices 0 to n-1, each one byte (DEDUCED, log entry 16). -/
def Pseudo.wellFormed : Pseudo → Bool
  | .advs bytes => !bytes.isEmpty
  | .field values => decide (values.length ≤ 255)
  | .frame as bs cs => decide (as.length ≤ 255) && decide (bs.length ≤ 255) && decide (cs.length ≤ 255)
  | .wait _ => true
  | .rdn _ n => decide (n ≤ 256)

end Sys2Proof
end

