-- ==== Sys2Proof/Decode.lean ====
section
/-! DEFINITION. The decoder of the four port words (30_encoding.md R57 to R59, R63 to R65), total on any bits, and
after it the encoder, written from the same formats. -/

namespace Sys2Proof

/-- The formats: which port a word is driven on. A word does not say its format itself: `ADV` and
`ACC.FEED` have the same bits on different ports (30_encoding.md R57, R58, R59). -/
inductive Format where
  | desCtrl
  | desRd
  | accCtrl
  | accRd
  deriving DecidableEq, Repr

/-- The width of a format's word in bits (R57, R58, R59). -/
def Format.width : Format → Nat
  | .desCtrl => 10
  | .desRd => 10
  | .accCtrl => 10
  | .accRd => 8

/-- Why bits are no word of a port. No word of the port's own width is illegal (R64, R65). -/
inductive DecodeError where
  /-- The bits do not fit the format's width: the port has no wire for them (DESIGN CHOICE, log entry 11). Safe. -/
  | wordTooWide (format : Format)
  deriving DecidableEq, Repr

/-- Bit 9 of a control word: `rst` (R57, R59). -/
def ctrlRst (w : Word10) : Bool := w.getLsbD 9

/-- Bit 8 of a control word: `in_valid` or `feed_valid` (R57, R59). -/
def ctrlValid (w : Word10) : Bool := w.getLsbD 8

/-- Bits 7:0 of a 10-bit word: the byte (R57, R59) or the read index (R58). -/
def lowByte (w : Word10) : Byte := w.extractLsb' 0 8

/-- Bits 9:8 of a DES_RD word: `rd_field` (R58). -/
def rdFieldBits (w : Word10) : BitVec 2 := w.extractLsb' 8 2

/-- The field-select code table of R63. -/
def FieldSel.ofCode (f : BitVec 2) : FieldSel :=
  if f = 0b00#2 then .a
  else if f = 0b01#2 then .b
  else if f = 0b10#2 then .c
  else .reserved

/-- Deserializer decode, R64: `rst` takes priority over `in_valid`. -/
def decodeDesCtrl (w : Word10) : Instr :=
  if ctrlRst w then .rst
  else if ctrlValid w then .adv (lowByte w)
  else .idle

/-- The read-port word of the deserializer, R58. -/
def decodeDesRd (w : Word10) : Instr := .rd (.ofCode (rdFieldBits w)) (lowByte w)

/-- field_accumulator decode, R65. -/
def decodeAccCtrl (w : Word10) : Instr :=
  if ctrlRst w then .accClear
  else if ctrlValid w then .accFeed (lowByte w)
  else .accIdle

/-- The read-port word of the field_accumulator, R59. -/
def decodeAccRd (w : Byte) : Instr := .accRd w

/-- The operation that a format's word selects. -/
def decodeWord (f : Format) (w : Nat) : Instr :=
  match f with
  | .desCtrl => decodeDesCtrl (BitVec.ofNat 10 w)
  | .desRd => decodeDesRd (BitVec.ofNat 10 w)
  | .accCtrl => decodeAccCtrl (BitVec.ofNat 10 w)
  | .accRd => decodeAccRd (BitVec.ofNat 8 w)

/-- The decoder, total on any bits: every word of the port's width selects an operation (R64, R65), and bits that
do not fit the port are refused by name (DESIGN CHOICE, log entry 11). -/
def decode (f : Format) (w : Nat) : Except DecodeError Instr :=
  if w < 2 ^ f.width then .ok (decodeWord f w) else .error (.wordTooWide f)

/-- The format read from the width the opcode table gives a row, in whole bytes: 8 bits for ACC_RD, else a
10-bit format in 16 bits. The table's DES_CTRL, DES_RD and ACC_CTRL rows share widths and patterns, and
the bits do not tell them apart: DESIGN CHOICE, 16 bits are read as DES_CTRL (log entry 11). -/
def tableFormat (nbits : Nat) : Format := if nbits ≤ 8 then .accRd else .desCtrl

/-- The instruction the decoder reads from a table row's word (log entry 11). -/
def decodeTableWord (nbits w : Nat) : Option Instr :=
  match decode (tableFormat nbits) w with
  | .ok i => some i
  | .error _ => none

/-- The 2-bit code of a field select (R63). -/
def FieldSel.code : FieldSel → BitVec 2
  | .a => 0b00#2
  | .b => 0b01#2
  | .c => 0b10#2
  | .reserved => 0b11#2

/-- `{rst, valid, byte}`: DES_CTRL (R57) and ACC_CTRL (R59). -/
def ctrlWord (rst valid : Bool) (byte : Byte) : Word10 :=
  BitVec.ofBool rst ++ (BitVec.ofBool valid ++ byte)

/-- `{rd_field, rd_index}`: DES_RD (R58). -/
def rdWord (f : FieldSel) (i : Byte) : Word10 := f.code ++ i

/-- The port an operation is presented on (R64, R65). -/
def Instr.format : Instr → Format
  | .adv _ => .desCtrl
  | .rst => .desCtrl
  | .idle => .desCtrl
  | .rd _ _ => .desRd
  | .accFeed _ => .accCtrl
  | .accClear => .accCtrl
  | .accIdle => .accCtrl
  | .accRd _ => .accRd

/-- The canonical word of an operation: ignored bits are 0, as in R70 (`RST` 0x200, `IDLE` 0x000). -/
def encode : Instr → Nat
  | .adv b => (ctrlWord false true b).toNat
  | .rst => (ctrlWord true false 0).toNat
  | .idle => (ctrlWord false false 0).toNat
  | .rd f i => (rdWord f i).toNat
  | .accFeed b => (ctrlWord false true b).toNat
  | .accClear => (ctrlWord true false 0).toNat
  | .accIdle => (ctrlWord false false 0).toNat
  | .accRd i => i.toNat

/-- A row of the opcode table: a word `w` of the format belongs to it when `w AND mask = pattern`. -/
structure Row where
  format : Format
  pattern : Nat
  mask : Nat
  deriving DecidableEq, Repr

/-- The row of spec/opcode_table.json that an operation belongs to. -/
def Instr.row : Instr → Row
  | .adv _ => { format := .desCtrl, pattern := 0x100, mask := 0x300 }
  | .rst => { format := .desCtrl, pattern := 0x200, mask := 0x200 }
  | .idle => { format := .desCtrl, pattern := 0x000, mask := 0x300 }
  | .rd _ _ => { format := .desRd, pattern := 0x000, mask := 0x000 }
  | .accFeed _ => { format := .accCtrl, pattern := 0x100, mask := 0x300 }
  | .accClear => { format := .accCtrl, pattern := 0x200, mask := 0x200 }
  | .accIdle => { format := .accCtrl, pattern := 0x000, mask := 0x300 }
  | .accRd _ => { format := .accRd, pattern := 0x00, mask := 0x00 }

/-- The word belongs to the row. -/
def Row.covers (r : Row) (w : Nat) : Bool := w &&& r.mask == r.pattern

end Sys2Proof
end

