-- ==== Sys2Proof/Config.lean ====
section
/-! DEFINITION. What an instance of the hardware fixes (00_scope.md R7, R8), and the values the spec leaves
open: the power-on contents (10_state.md R36, 70_reset_and_hazards.md R115) and the external CRC collaborator's parameters (R10). -/

namespace Sys2Proof

/-- A capacity `N` of a field_accumulator: `0 <= N <= 255` (00_scope.md R7). -/
abbrev Capacity := Fin 256

/-- The instantiation parameters: the capacities of the deserializer's three accumulators (R8) and of the
stand-alone field_accumulator (R7). They are no registers (10_state.md R30, R33). -/
structure Params where
  nA : Capacity
  nB : Capacity
  nC : Capacity
  nAcc : Capacity
  deriving DecidableEq, Repr

/-- "The values of this hardware": 31, 40 and 64 (00_scope.md R8). The spec gives the stand-alone
accumulator's `N` no default: DESIGN CHOICE 31 (log entry 3); every `N` is reached through `State.params`. -/
def Config.params : Params := { nA := 31, nB := 40, nC := 64, nAcc := 31 }

/-- Byte order of the CRC trailer: one of the two the source allows (00_scope.md R10). -/
inductive ByteOrder where
  | big
  | little
  deriving DecidableEq, Repr, Inhabited

/-- A CRC16 parameter set, as far as R10 names its parts: polynomial, initial value and reflection. -/
structure CrcVariant where
  polynomial : BitVec 16
  initial : BitVec 16
  reflected : Bool
  deriving DecidableEq, Repr, Inhabited

/-- CRC_BYTE_ORDER, left open by R10; "no rule of this spec reads any of them" (log entry 14). -/
opaque Config.crcByteOrder : ByteOrder

/-- CRC_RANGE, left open by R10: the positions of the frame bytes that the CRC covers (log entry 14). -/
opaque Config.crcRange : List Nat

/-- CRC_VARIANT, left open by R10 (log entry 14). -/
opaque Config.crcVariant : CrcVariant

/-- Free value: the code `tag` holds at power-on, an unused one perhaps (10_state.md R36, log entry 2). -/
opaque Config.powerOnTag : BitVec 3

/-- Free value: `len_set` at power-on of accumulator 0 (A), 1 (B), 2 (C) or 3 (stand-alone) (R36, log entry 2). -/
opaque Config.powerOnLenSet : Nat → Bool

/-- Free value: `len` at power-on, by accumulator (R36, log entry 2). -/
opaque Config.powerOnLen : Nat → Byte

/-- Free value: `filled` at power-on, by accumulator; its register has at most 8 bits (R19, R36, log entry 2). -/
opaque Config.powerOnFilled : Nat → Byte

/-- Free value: a storage cell at power-on, by accumulator and index (R36, log entry 2). -/
opaque Config.powerOnCell : Nat → Nat → Byte

/-- Free value: what a read of a storage index at or beyond N shows, which only a state before the first
reset edge can ask for (70_reset_and_hazards.md R115, log entry 8). -/
opaque Config.missingCell : Nat → Byte

end Sys2Proof
end

