-- ==== Sys2Proof/Machine/State.lean ====
section
/-! DEFINITION. The state of the two blocks as plain data (10_state.md), what a cycle is given and shows, the
reasons a step can stop, and the state after reset. -/

namespace Sys2Proof.Machine

/-- A storage buffer: the cells that do not read as 0x00, by index, in rising order. An unlisted cell
reads as 0x00, the value reset leaves in every cell (10_state.md R34; log entry 9). -/
abbrev Memory := List Host.Cell

/-- The registers of one field_accumulator (10_state.md R16). -/
structure Accumulator where
  /-- `len_set`: the declared length is set (R17). -/
  lenSet : Bool
  /-- `len`: the declared length (R18). -/
  len : Byte
  /-- `filled`: the number of value bytes stored; a counter 0..N of unobservable width (R19; log entry 10). -/
  filled : Nat
  /-- `storage[0..N-1]` (R20). -/
  storage : Memory
  deriving DecidableEq, Repr

/-- The reset value of an accumulator (R34): Unset, length 0x00, nothing filled, every cell 0x00. -/
def Accumulator.empty : Accumulator := { lenSet := false, len := 0x00#8, filled := 0, storage := [] }

/-- The 3-bit state tag (R24): five legal values, and the three unused codes of 30_encoding.md R60, which
only a power-on state can hold (R85; log entry 12). -/
inductive Tag where
  | awaitingA
  | awaitingB
  | awaitingC
  | complete
  | error
  | unused5
  | unused6
  | unused7
  deriving DecidableEq, Repr

/-- The registers of frame_deserializer_fsm: `tag` and three accumulators, "nothing else" (R25). -/
structure Deserializer where
  tag : Tag
  accA : Accumulator
  accB : Accumulator
  accC : Accumulator
  deriving DecidableEq, Repr

/-- The reset value of the deserializer (R35). -/
def Deserializer.fresh : Deserializer :=
  { tag := .awaitingA, accA := .empty, accB := .empty, accC := .empty }

/-- The deserializer's per-byte report (30_encoding.md R61). `cont` is Continue. -/
inductive Signal where
  | cont
  | frameComplete
  | malformed
  | alreadyDone
  deriving DecidableEq, Repr

/-- The accumulator's per-byte report, the spec's Outcome (30_encoding.md R62). -/
inductive Report where
  | needsMore
  | fieldComplete
  | lengthInvalid
  | overfeed
  deriving DecidableEq, Repr

/-- The status outputs T0 to T9 of the deserializer (10_state.md R32). -/
structure DesStatus where
  stTag : BitVec 3
  stLenSetA : Bool
  stLenA : Byte
  stFilledA : Byte
  stLenSetB : Bool
  stLenB : Byte
  stFilledB : Byte
  stLenSetC : Bool
  stLenC : Byte
  stFilledC : Byte
  deriving DecidableEq, Repr

/-- The status outputs S0 to S3 of a field_accumulator (R31). -/
structure AccStatus where
  lenSet : Bool
  len : Byte
  filled : Byte
  complete : Bool
  deriving DecidableEq, Repr

/-- The output ports of the deserializer in one cycle (30_encoding.md R55). -/
structure DesOut where
  inReady : Bool
  sigValid : Bool
  sig : BitVec 2
  rdValid : Bool
  rdData : Byte
  status : DesStatus
  deriving DecidableEq, Repr

/-- The output ports of the stand-alone accumulator in one cycle (R56). -/
structure AccOut where
  outcomeValid : Bool
  outcome : BitVec 2
  rdValid : Bool
  rdData : Byte
  status : AccStatus
  deriving DecidableEq, Repr

/-- The input words of one cycle: the deserializer's DES_CTRL (R57) and DES_RD (R58), and the stand-alone
accumulator's ACC_CTRL and ACC_RD (R59). -/
structure Line where
  desCtrl : Word10
  desRd : Word10
  accCtrl : Word10
  accRd : Byte
  deriving DecidableEq, Repr

/-- What the driver presents at an edge: defined words, or an input that is undefined (X) or misses its
setup or hold time (70_reset_and_hazards.md R125). -/
inductive CycleInput where
  | driven (line : Line)
  | undefined
  deriving DecidableEq, Repr

/-- The machine: the two blocks' registers, their instantiation parameters, the input lines to come, and
the outputs of the cycle last stepped. Only `des` and `acc` are registers (R16, R25, R33; log entries 3 to 7). -/
structure State where
  /-- The capacities of this instance (00_scope.md R7, R8). No step changes them. -/
  params : Params
  /-- The frame_deserializer_fsm instance. -/
  des : Deserializer
  /-- The stand-alone field_accumulator instance. -/
  acc : Accumulator
  /-- The input lines not yet presented, the next one first (30_encoding.md R54, R70). -/
  stimulus : List CycleInput
  /-- The deserializer's outputs in the cycle last stepped. -/
  desOut : DesOut
  /-- The stand-alone accumulator's outputs in the cycle last stepped. -/
  accOut : AccOut
  deriving DecidableEq, Repr

/-- Why a step stops with a fault. -/
inductive Fault where
  /-- A write to a storage cell at an index the storage space does not have (20_memory.md R38). Raised by
  `ADV` and `ACC.FEED` for a value byte with `filled >= N`. No state reachable from reset raises it
  (10_state.md R22, 20_memory.md R44). Safe: the model stops where the spec gives no behaviour (log entry 8). -/
  | noSuchCell (index : Nat)
  deriving DecidableEq, Repr

/-- Why a step has no meaning. -/
inductive Refusal where
  /-- An instruction whose meaning is not written. Raised by `exec` only. Safe. -/
  | notModelled (mnemonic : String)
  /-- No input line is left: the run has ended (70_reset_and_hazards.md R128). Raised by the step only. Safe (log entry 5). -/
  | endOfStimulus
  /-- An input is undefined at the edge: "a model admits no step for it" (R125). Raised by the step only. Safe (log entry 6). -/
  | undefinedInput
  deriving DecidableEq, Repr

/-- The deserializer's outputs before any cycle was stepped: DESIGN CHOICE, the quiet values and the reset
values of R32 (log entry 7). -/
def DesOut.quiet : DesOut :=
  { inReady := true, sigValid := false, sig := 0b00#2, rdValid := false, rdData := 0x00#8
    status :=
      { stTag := 0b000#3
        stLenSetA := false, stLenA := 0x00#8, stFilledA := 0x00#8
        stLenSetB := false, stLenB := 0x00#8, stFilledB := 0x00#8
        stLenSetC := false, stLenC := 0x00#8, stFilledC := 0x00#8 } }

/-- The accumulator's outputs before any cycle was stepped: DESIGN CHOICE, the quiet values and the reset
values of R31 (log entry 7). -/
def AccOut.quiet : AccOut :=
  { outcomeValid := false, outcome := 0b00#2, rdValid := false, rdData := 0x00#8
    status := { lenSet := false, len := 0x00#8, filled := 0x00#8, complete := false } }

/-- The machine right after a reset step of both blocks (R34, R35), with no input line loaded (log entries 1, 5). -/
def State.reset : State :=
  { params := Config.params
    des := .fresh
    acc := .empty
    stimulus := []
    desOut := .quiet
    accOut := .quiet }

end Sys2Proof.Machine
end

