-- ==== Sys2Proof/Machine/Operands.lean ====
section
/-! DEFINITION. The operand forms (30_encoding.md R66) and the field functions of 00_scope.md R13. -/

namespace Sys2Proof.Machine

/-- `zext_9(b) > N`: the capacity check, an unsigned comparison (R66; 41_frame_deserializer.md R93). -/
def exceedsCapacity (b : Byte) (n : Capacity) : Bool := decide (n.val < b.toNat)

/-- `zext_9(i) < filled`: the range test of a read (R93). -/
def indexBelow (i : Byte) (filled : Nat) : Bool := decide (i.toNat < filled)

/-- The field a field-select operand names; the reserved code names none (30_encoding.md R63). -/
def selectedField : FieldSel → Option Field
  | .a => some .a
  | .b => some .b
  | .c => some .c
  | .reserved => none

/-- The capacity of a field's accumulator (00_scope.md R8). -/
def capacityOf (p : Params) : Field → Capacity
  | .a => p.nA
  | .b => p.nB
  | .c => p.nC

/-- `active(tag)`: the field whose accumulator receives the next byte (00_scope.md R13); none in a terminal
state or an unused code (41_frame_deserializer.md R82, R85). -/
def activeField : Tag → Option Field
  | .awaitingA => some .a
  | .awaitingB => some .b
  | .awaitingC => some .c
  | .complete => none
  | .error => none
  | .unused5 => none
  | .unused6 => none
  | .unused7 => none

/-- `Awaiting<X>` (30_encoding.md R56). -/
def awaitingTag : Field → Tag
  | .a => .awaitingA
  | .b => .awaitingB
  | .c => .awaitingC

/-- `next_tag(X)` (00_scope.md R13). -/
def nextTag : Field → Tag
  | .a => .awaitingB
  | .b => .awaitingC
  | .c => .complete

/-- `acc_X`. -/
def accOf (d : Deserializer) : Field → Accumulator
  | .a => d.accA
  | .b => d.accB
  | .c => d.accC

/-- `d` with `acc_X` written. -/
def withAcc (d : Deserializer) (X : Field) (a : Accumulator) : Deserializer :=
  match X with
  | .a => { d with accA := a }
  | .b => { d with accB := a }
  | .c => { d with accC := a }

end Sys2Proof.Machine
end

