-- ==== Sys2Proof/Machine/Flags.lean ====
section
/-! DEFINITION. The derived flag `complete` (10_state.md R21), the code tables (30_encoding.md R60 to R62), the reports of
a byte, and the status outputs (10_state.md R31, R32). -/

namespace Sys2Proof.Machine

/-- `complete = len_set AND (filled == len)` (10_state.md R21). -/
def isComplete (a : Accumulator) : Bool := a.lenSet && a.filled == a.len.toNat

/-- State-tag encoding (30_encoding.md R60). -/
def tagCode : Tag → BitVec 3
  | .awaitingA => 0b000#3
  | .awaitingB => 0b001#3
  | .awaitingC => 0b010#3
  | .complete => 0b011#3
  | .error => 0b100#3
  | .unused5 => 0b101#3
  | .unused6 => 0b110#3
  | .unused7 => 0b111#3

/-- The tag a 3-bit register value stands for (R60). -/
def tagOfCode (c : BitVec 3) : Tag :=
  if c = 0b000#3 then .awaitingA
  else if c = 0b001#3 then .awaitingB
  else if c = 0b010#3 then .awaitingC
  else if c = 0b011#3 then .complete
  else if c = 0b100#3 then .error
  else if c = 0b101#3 then .unused5
  else if c = 0b110#3 then .unused6
  else .unused7

/-- Signal encoding (R61). -/
def signalCode : Signal → BitVec 2
  | .cont => 0b00#2
  | .frameComplete => 0b01#2
  | .malformed => 0b10#2
  | .alreadyDone => 0b11#2

/-- Outcome encoding (R62). -/
def reportCode : Report → BitVec 2
  | .needsMore => 0b00#2
  | .fieldComplete => 0b01#2
  | .lengthInvalid => 0b10#2
  | .overfeed => 0b11#2

/-- The report of an accepted length byte: a zero-length field is complete at once (40_field_accumulator.md R72,
90_conflicts.md C1). -/
def lengthReport (b : Byte) : Report := if b = 0x00#8 then .fieldComplete else .needsMore

/-- The report of a stored value byte: `filled + 1 == len`, with the `filled` before the edge (R72). -/
def valueReport (filled : Nat) (len : Byte) : Report :=
  if filled + 1 = len.toNat then .fieldComplete else .needsMore

/-- `FieldComplete` of field X as a Signal: `FrameComplete` for C, else `Continue` (41_frame_deserializer.md R79, R80). -/
def completionSignal (X : Field) : Signal := if X = .c then .frameComplete else .cont

/-- A status output of `filled`: `zext_8(filled)` (10_state.md R31, R32). -/
def filledOut (filled : Nat) : Byte := BitVec.ofNat 8 filled

/-- S0 to S3 (R31). -/
def accStatus (a : Accumulator) : AccStatus :=
  { lenSet := a.lenSet, len := a.len, filled := filledOut a.filled, complete := isComplete a }

/-- T0 to T9 (R32). -/
def desStatus (d : Deserializer) : DesStatus :=
  { stTag := tagCode d.tag
    stLenSetA := d.accA.lenSet, stLenA := d.accA.len, stFilledA := filledOut d.accA.filled
    stLenSetB := d.accB.lenSet, stLenB := d.accB.len, stFilledB := filledOut d.accB.filled
    stLenSetC := d.accC.lenSet, stLenC := d.accC.len, stFilledC := filledOut d.accC.filled }

/-- The first field, in the order A, B, C, with `len_set = 0`: in state Error, the field whose length was
rejected (10_state.md R29, 60_exceptions.md R99). It reads the status outputs alone. -/
def firstUnsetField (t : DesStatus) : Option Field :=
  if t.stLenSetA = false then some .a
  else if t.stLenSetB = false then some .b
  else if t.stLenSetC = false then some .c
  else none

end Sys2Proof.Machine
end

