-- ==== Sys2Proof/Machine/Ops.lean ====
section
/-! DEFINITION. The named operations over storage, accumulators, the deserializer and the ports, shared by the
meanings of the instructions. -/

namespace Sys2Proof.Machine

/-! ### Storage -/

/-- What a cell that is not listed reads as: 0x00, as reset leaves every cell (10_state.md R34; log entry 9). -/
def unlistedByte : Byte := 0x00#8

/-- The byte at index `i`. -/
def readCell (m : Memory) (i : Nat) : Byte :=
  match m with
  | [] => unlistedByte
  | c :: rest => if c.1 = i then c.2 else readCell rest i

/-- Put a cell into a rising list that holds no cell of that index. -/
def insertCell (i : Nat) (v : Byte) (m : Memory) : Memory :=
  match m with
  | [] => [(i, v)]
  | c :: rest => if i < c.1 then (i, v) :: c :: rest else c :: insertCell i v rest

/-- Write the byte at index `i`, in canonical form: a cell that reads as an unlisted one is not listed. -/
def writeCell (m : Memory) (i : Nat) (v : Byte) : Memory :=
  let others := m.filter (fun c => c.1 != i)
  if v = unlistedByte then others else insertCell i v others

/-- The canonical form: indices strictly rising, and no cell listed that reads as an unlisted one. -/
abbrev Memory.wf (m : Memory) : Prop :=
  m.Pairwise (fun c d => c.1 < d.1) ∧ ∀ c ∈ m, c.2 ≠ unlistedByte

/-- `MemRead((X, i), 1)` (00_scope.md R12) in a storage space of `n` cells (20_memory.md R38). No read from a state
reachable from reset is outside it (10_state.md R22). Before the first reset edge "`rd_data` ... may show any
value" (70_reset_and_hazards.md R115): a free value (log entry 8). -/
def memRead (n : Capacity) (m : Memory) (i : Nat) : Byte :=
  if i < n.val then readCell m i else Config.missingCell i

/-- `MemWrite((X, i), 1, v)` (00_scope.md R12) in a storage space of `n` cells (20_memory.md R38). -/
def memWrite (n : Capacity) (m : Memory) (i : Nat) (v : Byte) : Except Fault Memory :=
  if i < n.val then .ok (writeCell m i v) else .error (.noSuchCell i)

/-! ### field_accumulator (40_field_accumulator.md) -/

/-- A length byte is accepted: `len_set <- 1`, `len <- b` (R72). -/
def acceptLength (b : Byte) (a : Accumulator) : Accumulator := { a with lenSet := true, len := b }

/-- A value byte is stored: `storage[filled] <- b`, `filled <- filled + 1` (R72). -/
def storeValue (n : Capacity) (b : Byte) (a : Accumulator) : Except Fault Accumulator :=
  match memWrite n a.storage a.filled b with
  | .error f => .error f
  | .ok m => .ok { a with storage := m, filled := a.filled + 1 }

/-- `ACC.FEED(b)` on an accumulator of capacity `n`: its next registers and its report (R72; the order of
checks is 60_exceptions.md R103). -/
def feedAcc (n : Capacity) (b : Byte) (a : Accumulator) : Except Fault (Accumulator × Report) :=
  if a.lenSet = false then
    if exceedsCapacity b n then .ok (a, .lengthInvalid)
    else .ok (acceptLength b a, lengthReport b)
  else if a.filled = a.len.toNat then .ok (a, .overfeed)
  else
    match storeValue n b a with
    | .error f => .error f
    | .ok a' => .ok (a', valueReport a.filled a.len)

/-- `ACC.CLEAR`: every register to its reset value, every cell to 0x00, whatever it held (R75, 10_state.md R34). -/
def clearAcc (_ : Accumulator) : Accumulator := .empty

/-- `ACC.RD(i)`: `rd_valid` and `rd_data` (R76). -/
def readAcc (n : Capacity) (i : Byte) (a : Accumulator) : Bool × Byte :=
  if indexBelow i a.filled then (true, memRead n a.storage i.toNat) else (false, 0x00#8)

/-! ### frame_deserializer_fsm (41_frame_deserializer.md) -/

/-- Entry into Error: `tag <- Error` and nothing else, reported as `Malformed` (60_exceptions.md R97). The block has
no trap and no return from one (R96, R105). -/
def enterError (d : Deserializer) : Deserializer × Signal := ({ d with tag := .error }, .malformed)

/-- The tag and the Signal that the active accumulator's report selects (R79, R80). `overfeed` is
unreachable from reset (R88). -/
def reactTo (X : Field) (o : Report) (d : Deserializer) : Deserializer × Signal :=
  match o with
  | .needsMore => (d, .cont)
  | .fieldComplete => ({ d with tag := nextTag X }, completionSignal X)
  | .lengthInvalid => enterError d
  | .overfeed => enterError d

/-- `ADV(b)`: route the byte to the active accumulator and react to its report; in a terminal state or an
unused code the byte is ignored (R79, R82, R85). -/
def advanceDes (p : Params) (b : Byte) (d : Deserializer) : Except Fault (Deserializer × Signal) :=
  match activeField d.tag with
  | none => .ok (d, .alreadyDone)
  | some X =>
    match feedAcc (capacityOf p X) b (accOf d X) with
    | .error f => .error f
    | .ok (a, o) => .ok (reactTo X o (withAcc d X a))

/-- `RST`: AwaitingA, and every accumulator cleared as by `ACC.CLEAR` (R84). -/
def resetDes (d : Deserializer) : Deserializer :=
  { tag := .awaitingA, accA := clearAcc d.accA, accB := clearAcc d.accB, accC := clearAcc d.accC }

/-- `RD(f, i)`: `rd_valid` and `rd_data`, gated on Complete and on a legal field code (R86). -/
def readDes (p : Params) (f : FieldSel) (i : Byte) (d : Deserializer) : Bool × Byte :=
  match selectedField f with
  | none => (false, 0x00#8)
  | some X => if d.tag = .complete then readAcc (capacityOf p X) i (accOf d X) else (false, 0x00#8)

/-! ### Ports -/

/-- Write the deserializer's registers. -/
def State.setDes (s : State) (d : Deserializer) : State := { s with des := d }

/-- Write the stand-alone accumulator's registers. -/
def State.setAcc (s : State) (a : Accumulator) : State := { s with acc := a }

/-- Drive `sig_valid = 1` and `sig` (R87). -/
def State.driveSig (s : State) (g : Signal) : State :=
  { s with desOut := { s.desOut with sigValid := true, sig := signalCode g } }

/-- Drive `sig_valid = 0` and `sig = 0b00` (R83, R84). -/
def State.driveNoSig (s : State) : State :=
  { s with desOut := { s.desOut with sigValid := false, sig := 0b00#2 } }

/-- Drive the deserializer's `rd_valid` and `rd_data` (R86). -/
def State.driveDesRd (s : State) (r : Bool × Byte) : State :=
  { s with desOut := { s.desOut with rdValid := r.1, rdData := r.2 } }

/-- Drive `outcome_valid = 1` and `outcome` (40_field_accumulator.md R72). -/
def State.driveReport (s : State) (o : Report) : State :=
  { s with accOut := { s.accOut with outcomeValid := true, outcome := reportCode o } }

/-- Drive `outcome_valid = 0` and `outcome = 0b00` (R74, R75). -/
def State.driveNoReport (s : State) : State :=
  { s with accOut := { s.accOut with outcomeValid := false, outcome := 0b00#2 } }

/-- Drive the stand-alone accumulator's `rd_valid` and `rd_data` (R76). -/
def State.driveAccRd (s : State) (r : Bool × Byte) : State :=
  { s with accOut := { s.accOut with rdValid := r.1, rdData := r.2 } }

/-- The outputs that no operation drives: `in_ready = 1` (30_encoding.md R69) and the status outputs, which
show the registers before the edge (10_state.md R31, R32; 20_memory.md R49 O-1). -/
def State.driveStatus (s : State) : State :=
  { s with
    desOut := { s.desOut with inReady := true, status := desStatus s.des }
    accOut := { s.accOut with status := accStatus s.acc } }

/-! ### The inputs of a cycle -/

/-- A cycle with every control input idle and every read port at address 0: the words that a line drives on the
ports it says nothing of (30_encoding.md R70 gives DES_RD = 0x000 for a line without `RD`; the others are a DESIGN
CHOICE, log entry 19). -/
def Line.quiet : Line := { desCtrl := 0x000#10, desRd := 0x000#10, accCtrl := 0x000#10, accRd := 0x00#8 }

/-- A cycle that drives one port with a word and leaves the other ports quiet (DESIGN CHOICE, log entries 11, 19). -/
def Line.ofWord (f : Format) (w : Nat) : Line :=
  match f with
  | .desCtrl => { Line.quiet with desCtrl := BitVec.ofNat 10 w }
  | .desRd => { Line.quiet with desRd := BitVec.ofNat 10 w }
  | .accCtrl => { Line.quiet with accCtrl := BitVec.ofNat 10 w }
  | .accRd => { Line.quiet with accRd := BitVec.ofNat 8 w }

/-- The input that presents an opcode-table word on the port `tableFormat` reads it on. Bits that do not
fit the port cannot be driven on it: no defined input (log entry 11). -/
def tableInput (nbits w : Nat) : CycleInput :=
  if w < 2 ^ (tableFormat nbits).width then .driven (Line.ofWord (tableFormat nbits) w) else .undefined

/-- Take the next input line: the run has ended when there is none (70_reset_and_hazards.md R128), and there is
no step for an undefined input (R125). -/
def fetchLine (s : State) : Except Refusal (Line × State) :=
  match s.stimulus with
  | [] => .error .endOfStimulus
  | .undefined :: _ => .error .undefinedInput
  | .driven l :: rest => .ok (l, { s with stimulus := rest })

end Sys2Proof.Machine
end

