-- ==== Sys2Proof/Machine/FieldAccumulator.lean ====
section
/-! DEFINITION. The meanings of the stand-alone field_accumulator's four operations (40_field_accumulator.md). -/

namespace Sys2Proof.Machine

/-- `ACC.FEED b` (R72). -/
def execAccFeed (b : Byte) (s : State) : Host.Outcome State Fault Refusal :=
  match feedAcc s.params.nAcc b s.acc with
  | .error f => .fault f
  | .ok (a, o) => .next ((s.setAcc a).driveReport o)

/-- `ACC.CLEAR` (R75). -/
def execAccClear (s : State) : Host.Outcome State Fault Refusal :=
  .next ((s.setAcc (clearAcc s.acc)).driveNoReport)

/-- `ACC.IDLE` (R74). -/
def execAccIdle (s : State) : Host.Outcome State Fault Refusal := .next s.driveNoReport

/-- `ACC.RD i` (R76). -/
def execAccRd (i : Byte) (s : State) : Host.Outcome State Fault Refusal :=
  .next (s.driveAccRd (readAcc s.params.nAcc i s.acc))

end Sys2Proof.Machine
end

