-- ==== Sys2Proof/Machine/FrameDeserializer.lean ====
section
/-! DEFINITION. The meanings of frame_deserializer_fsm's four operations (41_frame_deserializer.md). -/

namespace Sys2Proof.Machine

/-- `ADV b` (R79). -/
def execAdv (b : Byte) (s : State) : Host.Outcome State Fault Refusal :=
  match advanceDes s.params b s.des with
  | .error f => .fault f
  | .ok (d, g) => .next ((s.setDes d).driveSig g)

/-- `RST` (R84). -/
def execRst (s : State) : Host.Outcome State Fault Refusal := .next ((s.setDes (resetDes s.des)).driveNoSig)

/-- `IDLE` (R83). -/
def execIdle (s : State) : Host.Outcome State Fault Refusal := .next s.driveNoSig

/-- `RD f, i` (R86). -/
def execRd (f : FieldSel) (i : Byte) (s : State) : Host.Outcome State Fault Refusal :=
  .next (s.driveDesRd (readDes s.params f i s.des))

end Sys2Proof.Machine
end

