-- ==== Sys2Proof/Machine/Dispatch.lean ====
section
/-! DEFINITION. Which meaning each operation has: one arm per constructor of `Instr`. -/

namespace Sys2Proof.Machine

/-- The effect of one operation. -/
def exec (i : Instr) (s : State) : Host.Outcome State Fault Refusal :=
  match i with
  | .adv b => Sys2Proof.Machine.execAdv b s
  | .rst => Sys2Proof.Machine.execRst s
  | .idle => Sys2Proof.Machine.execIdle s
  | .rd f index => Sys2Proof.Machine.execRd f index s
  | .accFeed b => Sys2Proof.Machine.execAccFeed b s
  | .accClear => Sys2Proof.Machine.execAccClear s
  | .accIdle => Sys2Proof.Machine.execAccIdle s
  | .accRd index => Sys2Proof.Machine.execAccRd index s

end Sys2Proof.Machine
end

