-- ==== Sys2Proof/Machine/Cycle.lean ====
section
/-! DEFINITION. One clock cycle: the four operations its words select (30_encoding.md R54, R64, R65). -/

namespace Sys2Proof.Machine

/-- The operations of a cycle. A read is performed in every cycle, in parallel with the control operation,
and sees the state before the edge (R58, R64, R65; 20_memory.md R49), so the reads stand first (DEDUCED, log entry 13). -/
def cycleOps (l : Line) : List Instr :=
  [decodeDesRd l.desRd, decodeAccRd l.accRd, decodeDesCtrl l.desCtrl, decodeAccCtrl l.accCtrl]

/-- Perform operations in turn, stopping at the first that stops. -/
def runOps (ops : List Instr) (s : State) : Host.Outcome State Fault Refusal :=
  match ops with
  | [] => .next s
  | i :: rest =>
    match exec i s with
    | .next t => runOps rest t
    | .fault f => .fault f
    | .refused r => .refused r

/-- One cycle: take the input line, drive the status outputs from the state before the edge, perform the
line's operations. -/
def runCycle (s : State) : Host.Outcome State Fault Refusal :=
  match fetchLine s with
  | .error r => .refused r
  | .ok (l, t) => runOps (cycleOps l) t.driveStatus

end Sys2Proof.Machine
end

