-- ==== Sys2Proof/Machine/Step.lean ====
section
/-! DEFINITION. The step: one clock cycle of the block (30_encoding.md R54). -/

namespace Sys2Proof.Machine

/-- `step(S, ctrl, rdw)`: the control and read words are those of the next input line (R54). -/
def step (s : State) : Host.Outcome State Fault Refusal := runCycle s

/-- `s` with an opcode-table word as the next input line, in place of the line that stood there. This stands
for loading the stimulus from outside the machine (log entries 5 and 11). -/
def State.withFetchWord (s : State) (nbits w : Nat) : State :=
  { s with stimulus := tableInput nbits w :: s.stimulus.tail }

end Sys2Proof.Machine
end

