-- ==== Sys2Proof/Machine/Assembly.lean ====
section
/-! DEFINITION. The stimulus lines of 30_encoding.md R70 as input words, and the expansions of R71. -/

namespace Sys2Proof.Machine

/-- The DES_CTRL word of a control operation: `RST` 0x200, `ADV b` 0x100 | b, `IDLE` 0x000 (R70). -/
def desOpWord : DesOp → Word10
  | .rst => ctrlWord true false 0x00#8
  | .adv b => ctrlWord false true b
  | .idle => ctrlWord false false 0x00#8

/-- The four words of a line. A line without `RD` drives DES_RD = 0x000, an `RD` line is an IDLE cycle and an `ACC.RD`
line an ACC.IDLE cycle (R70). R70 gives a line the words of one block only: that a deserializer line drives
ACC_CTRL = 0x000 and ACC_RD = 0x00, an accumulator line DES_CTRL = 0x000 and DES_RD = 0x000, and an accumulator line
without `ACC.RD` ACC_RD = 0x00, is a DESIGN CHOICE (log entry 19). -/
def asmInput : AsmLine → Line
  | .des op => { Line.quiet with desCtrl := desOpWord op }
  | .rd f i => { Line.quiet with desRd := rdWord f i }
  | .desWithRead op f i => { Line.quiet with desCtrl := desOpWord op, desRd := rdWord f i }
  | .accFeed b => { Line.quiet with accCtrl := ctrlWord false true b }
  | .accClear => { Line.quiet with accCtrl := ctrlWord true false 0x00#8 }
  | .accIdle => Line.quiet
  | .accRd i => { Line.quiet with accRd := i }

/-- Lines as the inputs of a run. -/
def asmInputs (lines : List AsmLine) : List CycleInput := lines.map (fun l => .driven (asmInput l))

/-- `ADVS`: one `ADV` a byte (R71). -/
def advLines (bytes : List Byte) : List AsmLine := bytes.map (fun b => .des (.adv b))

/-- The bytes of `FIELD [v0, ..., v(n-1)]`: the length, then the values (R71). -/
def fieldBytes (values : List Byte) : List Byte := BitVec.ofNat 8 values.length :: values

/-- The bytes of `FRAME`, "the CRC trailer is not included" (R71). -/
def frameBytes (as bs cs : List Byte) : List Byte := fieldBytes as ++ fieldBytes bs ++ fieldBytes cs

/-- The select operand that names a field. -/
def selectOf : Field → FieldSel
  | .a => .a
  | .b => .b
  | .c => .c

/-- The lines a pseudo-instruction stands for, one cycle each; none where R71 gives no expansion. -/
def expand (p : Pseudo) : Option (List AsmLine) :=
  if p.wellFormed then
    match p with
    | .advs bytes => some (advLines bytes)
    | .field values => some (advLines (fieldBytes values))
    | .frame as bs cs => some (advLines (frameBytes as bs cs))
    | .wait k => some (List.replicate k (.des .idle))
    | .rdn X n => some ((List.range n).map (fun i => .rd (selectOf X) (BitVec.ofNat 8 i)))
  else none

end Sys2Proof.Machine
end

