-- ==== Sys2Proof/Machine/PowerOn.lean ====
section
/-! DEFINITION. The machine at power-on: every register holds an unspecified value (10_state.md R36), written as the free
values of Config (log entry 2). -/

namespace Sys2Proof.Machine

/-- A storage buffer of `n` cells with the contents `v`, in canonical form. -/
def memoryOf (n : Nat) (v : Nat → Byte) : Memory :=
  (List.range n).filterMap (fun i => if v i = unlistedByte then none else some (i, v i))

/-- Accumulator number `k` at power-on. -/
def powerOnAcc (k : Nat) (n : Capacity) : Accumulator :=
  { lenSet := Config.powerOnLenSet k
    len := Config.powerOnLen k
    filled := (Config.powerOnFilled k).toNat
    storage := memoryOf n.val (Config.powerOnCell k) }

/-- The machine of instance parameters `p` after power is applied and before the first reset edge (R36). Until
that edge "none of the rules ... is guaranteed" (70_reset_and_hazards.md R115; log entry 1). -/
def State.powerOn (p : Params) (stimulus : List CycleInput) : State :=
  { params := p
    des :=
      { tag := tagOfCode Config.powerOnTag
        accA := powerOnAcc 0 p.nA
        accB := powerOnAcc 1 p.nB
        accC := powerOnAcc 2 p.nC }
    acc := powerOnAcc 3 p.nAcc
    stimulus := stimulus
    desOut := .quiet
    accOut := .quiet }

end Sys2Proof.Machine
end

