-- ==== Sys2Proof/Safety.lean ====
section
/-! DEFINITION. What counts as a good state and a good run: the invariants of 10_state.md R22, R28 and R29, what an
outside observer can tell apart (R23), and the success of a run (70_reset_and_hazards.md R128). -/

namespace Sys2Proof.Machine

/-- "Empty means `len_set = 0` and `filled = 0`" (10_state.md R28). -/
abbrev AccEmpty (a : Accumulator) : Prop := a.lenSet = false ∧ a.filled = 0

/-- The storage buffer of a capacity-`n` accumulator: canonical, and no cell outside the storage space (20_memory.md R38). -/
abbrev StorageOk (n : Capacity) (m : Memory) : Prop := m.wf ∧ ∀ c ∈ m, c.1 < n.val

/-- The accumulator invariants (I-a) and (I-b) of R22, with a sound storage buffer. -/
abbrev AccInv (n : Capacity) (a : Accumulator) : Prop :=
  StorageOk n a.storage ∧
  (a.lenSet = false → a.filled = 0 ∧ a.len = 0x00#8) ∧
  (a.lenSet = true → a.filled ≤ a.len.toNat ∧ a.len.toNat ≤ n.val)

/-- The five legal tag values (R24). -/
abbrev LegalTag (t : Tag) : Prop :=
  t = .awaitingA ∨ t = .awaitingB ∨ t = .awaitingC ∨ t = .complete ∨ t = .error

/-- Which accumulators are complete and which are empty, for each legal tag: the table of R28, and R29 for Error. -/
abbrev TagInv (d : Deserializer) : Prop :=
  LegalTag d.tag ∧
  (d.tag = .awaitingA → isComplete d.accA = false ∧ AccEmpty d.accB ∧ AccEmpty d.accC) ∧
  (d.tag = .awaitingB → isComplete d.accA = true ∧ isComplete d.accB = false ∧ AccEmpty d.accC) ∧
  (d.tag = .awaitingC → isComplete d.accA = true ∧ isComplete d.accB = true ∧ isComplete d.accC = false) ∧
  (d.tag = .complete → isComplete d.accA = true ∧ isComplete d.accB = true ∧ isComplete d.accC = true) ∧
  (d.tag = .error →
    (AccEmpty d.accA ∧ AccEmpty d.accB ∧ AccEmpty d.accC) ∨
    (isComplete d.accA = true ∧ AccEmpty d.accB ∧ AccEmpty d.accC) ∨
    (isComplete d.accA = true ∧ isComplete d.accB = true ∧ AccEmpty d.accC))

/-- What holds in every state reachable from reset (R22, R28, R29). -/
abbrev State.Inv (s : State) : Prop :=
  (AccInv s.params.nA s.des.accA ∧ AccInv s.params.nB s.des.accB ∧ AccInv s.params.nC s.des.accC) ∧
  TagInv s.des ∧
  AccInv s.params.nAcc s.acc

/-- Two accumulators that agree on all but the cells at and beyond `filled`, which no output depends on (R23). -/
def SameVisible (a a' : Accumulator) : Prop :=
  a.lenSet = a'.lenSet ∧ a.len = a'.len ∧ a.filled = a'.filled ∧
  ∀ i, i < a.filled → readCell a.storage i = readCell a'.storage i

/-- Two machines that agree on all but such cells. -/
def State.SameVisible (s s' : State) : Prop :=
  s.params = s'.params ∧ s.stimulus = s'.stimulus ∧ s.desOut = s'.desOut ∧ s.accOut = s'.accOut ∧
  s.des.tag = s'.des.tag ∧
  Machine.SameVisible s.des.accA s'.des.accA ∧ Machine.SameVisible s.des.accB s'.des.accB ∧
  Machine.SameVisible s.des.accC s'.des.accC ∧ Machine.SameVisible s.acc s'.acc

/-- The first `k` cycles of a run, each with its input line and the deserializer's outputs (R128); shorter
if the run stops. -/
def observe : Nat → State → List (Line × DesOut)
  | 0, _ => []
  | k + 1, s =>
    match fetchLine s, step s with
    | .ok (l, _), .next t => (l, t.desOut) :: observe k t
    | _, _ => []

/-- The cycle reports signal `g`. -/
def reports (g : Signal) (o : DesOut) : Bool := o.sigValid && o.sig == signalCode g

/-- No line reports `Malformed`, up to the next `RST` (R128). -/
def noMalformedBeforeRst : List (Line × DesOut) → Bool
  | [] => true
  | (l, o) :: rest => ctrlRst l.desCtrl || (!reports .malformed o && noMalformedBeforeRst rest)

/-- "A run 'succeeds' for a frame when some line reports `FrameComplete` and no line after it, up to the
next `RST`, reports `Malformed`" (R128). -/
def frameSucceeds : List (Line × DesOut) → Bool
  | [] => false
  | (_, o) :: rest => (reports .frameComplete o && noMalformedBeforeRst rest) || frameSucceeds rest

/-- Feed bytes to the stand-alone accumulator one after the other: the outcomes in order, and the state at
the end (40_field_accumulator.md R77). None if one does not complete. -/
def feedRun : List Byte → State → Option (List (BitVec 2) × State)
  | [], s => some ([], s)
  | b :: rest, s =>
    match exec (.accFeed b) s with
    | .next t => (feedRun rest t).map (fun r => (t.accOut.outcome :: r.1, r.2))
    | _ => none

/-- The state-transition table of 41_frame_deserializer.md R80, row by row: the next tag and the Signal of
an active tag and the active accumulator's report. -/
def transitionTable : Tag → Report → Option (Tag × Signal)
  | .awaitingA, .needsMore => some (.awaitingA, .cont)
  | .awaitingA, .fieldComplete => some (.awaitingB, .cont)
  | .awaitingA, .lengthInvalid => some (.error, .malformed)
  | .awaitingB, .needsMore => some (.awaitingB, .cont)
  | .awaitingB, .fieldComplete => some (.awaitingC, .cont)
  | .awaitingB, .lengthInvalid => some (.error, .malformed)
  | .awaitingC, .needsMore => some (.awaitingC, .cont)
  | .awaitingC, .fieldComplete => some (.complete, .frameComplete)
  | .awaitingC, .lengthInvalid => some (.error, .malformed)
  | _, _ => none

end Sys2Proof.Machine
end

