-- ==== Sys2Proof/Certificates/Slice0/Obligations.lean ====
section
/-! DEFINITION. The statements for the provers. Each docstring names the rule of spec/ it comes from. -/

open Sys2Proof Sys2Proof.Machine

/-! ### Encoding -/

/-- 30_encoding.md R57 to R59, R63 to R65: the canonical word of every operation, with every operand at every
value, decodes to that operation on its port. -/
def Obligations.DecodeOfEncodeIsTheOperation : Prop :=
  ∀ i : Instr, i.wellFormed = true → decode i.format (encode i) = .ok i

/-- R64: the DES_CTRL and DES_RD words as numbers. Bit 9 (0x200) selects RST whatever the rest, else bit 8
(0x100) selects ADV of the low byte, else IDLE; DES_RD is the field code and the index. Every 10-bit word
decodes. The last clause is the model's own, not R64's: that bits which do not fit the port are refused, and the name
`wordTooWide` of that refusal, are a DESIGN CHOICE (log entry 11). -/
def Obligations.EveryDeserializerWordDecodes : Prop :=
  ∀ w : Nat,
    (0x200 ≤ w ∧ w < 0x400 → decode .desCtrl w = .ok .rst) ∧
    (0x100 ≤ w ∧ w < 0x200 → decode .desCtrl w = .ok (.adv (BitVec.ofNat 8 (w - 0x100)))) ∧
    (w < 0x100 → decode .desCtrl w = .ok .idle) ∧
    (w < 0x100 → decode .desRd w = .ok (.rd .a (BitVec.ofNat 8 w))) ∧
    (0x100 ≤ w ∧ w < 0x200 → decode .desRd w = .ok (.rd .b (BitVec.ofNat 8 (w - 0x100)))) ∧
    (0x200 ≤ w ∧ w < 0x300 → decode .desRd w = .ok (.rd .c (BitVec.ofNat 8 (w - 0x200)))) ∧
    (0x300 ≤ w ∧ w < 0x400 → decode .desRd w = .ok (.rd .reserved (BitVec.ofNat 8 (w - 0x300)))) ∧
    (0x400 ≤ w → decode .desCtrl w = .error (.wordTooWide .desCtrl) ∧ decode .desRd w = .error (.wordTooWide .desRd))

/-- R65: the ACC_CTRL and ACC_RD words as numbers. Every 10-bit ACC_CTRL word and every 8-bit ACC_RD word decodes. The
last two clauses are the model's own, not R65's: that bits which do not fit the port are refused, and the name
`wordTooWide` of that refusal, are a DESIGN CHOICE (log entry 11). -/
def Obligations.EveryAccumulatorWordDecodes : Prop :=
  ∀ w : Nat,
    (0x200 ≤ w ∧ w < 0x400 → decode .accCtrl w = .ok .accClear) ∧
    (0x100 ≤ w ∧ w < 0x200 → decode .accCtrl w = .ok (.accFeed (BitVec.ofNat 8 (w - 0x100)))) ∧
    (w < 0x100 → decode .accCtrl w = .ok .accIdle) ∧
    (w < 0x100 → decode .accRd w = .ok (.accRd (BitVec.ofNat 8 w))) ∧
    (0x400 ≤ w → decode .accCtrl w = .error (.wordTooWide .accCtrl)) ∧
    (0x100 ≤ w → decode .accRd w = .error (.wordTooWide .accRd))

/-- spec/opcode_table.json: a word of an operation's port is covered by that operation's row (mask and match)
exactly when it decodes to an operation of the same row. So no two rows of a port overlap. -/
def Obligations.RowCoversExactlyItsWords : Prop :=
  ∀ (i : Instr) (w : Nat), w < 2 ^ i.format.width →
    (i.row.covers w = true ↔ ∃ j, decode i.format w = .ok j ∧ j.row = i.row)

/-- Words of 95_test_vectors.md and 30_encoding.md R70, written out: each decodes to the operation it stands for. -/
def Obligations.WrittenOutWordsDecode : Prop :=
  decode .desCtrl 0b0100000011 = .ok (.adv 3#8) ∧
  decode .desCtrl 0b0101100011 = .ok (.adv 99#8) ∧
  decode .desCtrl 0b1000000000 = .ok .rst ∧
  decode .desCtrl 0b1100000101 = .ok .rst ∧
  decode .desCtrl 0b0010101011 = .ok .idle ∧
  decode .desRd 0b1000000011 = .ok (.rd .c 3#8) ∧
  decode .desRd 0b1100000000 = .ok (.rd .reserved 0#8) ∧
  decode .accCtrl 0b0100011111 = .ok (.accFeed 31#8) ∧
  decode .accCtrl 0b1110101011 = .ok .accClear ∧
  decode .accCtrl 0b0011111111 = .ok .accIdle ∧
  decode .accRd 0b11111111 = .ok (.accRd 255#8)

/-- The code tables of 30_encoding.md R60, R61 and R62, row by row, and the 3-bit register values of R60 read back. -/
def Obligations.CodeTables : Prop :=
  (tagCode .awaitingA = 0b000#3 ∧ tagCode .awaitingB = 0b001#3 ∧ tagCode .awaitingC = 0b010#3 ∧
    tagCode .complete = 0b011#3 ∧ tagCode .error = 0b100#3) ∧
  (∀ c : BitVec 3, tagCode (tagOfCode c) = c) ∧ (∀ t : Tag, tagOfCode (tagCode t) = t) ∧
  (signalCode .cont = 0b00#2 ∧ signalCode .frameComplete = 0b01#2 ∧ signalCode .malformed = 0b10#2 ∧
    signalCode .alreadyDone = 0b11#2) ∧
  (reportCode .needsMore = 0b00#2 ∧ reportCode .fieldComplete = 0b01#2 ∧ reportCode .lengthInvalid = 0b10#2 ∧
    reportCode .overfeed = 0b11#2)

/-- R71: FRAME expands to 3 + La + Lb + Lc ADV lines when every list has at most 255 elements, and otherwise has
no expansion. -/
def Obligations.FrameExpansionLength : Prop :=
  ∀ as bs cs : List Byte,
    (as.length ≤ 255 ∧ bs.length ≤ 255 ∧ cs.length ≤ 255 →
      ∃ ls, expand (.frame as bs cs) = some ls ∧ ls.length = 3 + as.length + bs.length + cs.length ∧
        ∀ l ∈ ls, ∃ b, l = .des (.adv b)) ∧
    (255 < as.length ∨ 255 < bs.length ∨ 255 < cs.length → expand (.frame as bs cs) = none)

/-! ### The step -/

/-- A step runs the decoded operations. When the next input is a driven line whose four words decode to `r`, `q`,
`c` and `a`, the step takes the line, drives the status outputs (and `in_ready`) from the state before the edge,
and performs `r`, `q`, `c`, `a` in turn, stopping at the first that stops (30_encoding.md R54, R64, R65;
the order is the model's, DEDUCED, log entry 13). -/
def Obligations.StepRunsTheDecodedOperations : Prop :=
  ∀ (s : State) (l : Line) (rest : List CycleInput) (r q c a : Instr),
    s.stimulus = .driven l :: rest →
    decode .desRd l.desRd.toNat = .ok r → decode .accRd l.accRd.toNat = .ok q →
    decode .desCtrl l.desCtrl.toNat = .ok c → decode .accCtrl l.accCtrl.toNat = .ok a →
    let s0 : State :=
      { s with
        stimulus := rest
        desOut := { s.desOut with inReady := true, status := desStatus s.des }
        accOut := { s.accOut with status := accStatus s.acc } }
    (∀ s1 s2 s3 s4, exec r s0 = .next s1 → exec q s1 = .next s2 → exec c s2 = .next s3 → exec a s3 = .next s4 →
      step s = .next s4) ∧
    (∀ s1 s2 f, exec r s0 = .next s1 → exec q s1 = .next s2 → exec c s2 = .fault f → step s = .fault f) ∧
    (∀ s1 s2 s3 f, exec r s0 = .next s1 → exec q s1 = .next s2 → exec c s2 = .next s3 → exec a s3 = .fault f →
      step s = .fault f)

/-- 20_memory.md R49 and 30_encoding.md R54: every operation of a cycle acts on `S`, the state before the edge. The
registers after the edge and the combinational outputs of the cycle are those that each operation gives on
`S` by itself, and the status outputs are those of `S`. -/
def Obligations.EveryOperationSeesThePreEdgeState : Prop :=
  ∀ (s t : State) (l : Line) (rest : List CycleInput), s.stimulus = .driven l :: rest → step s = .next t →
    (∃ u, exec (decodeDesCtrl l.desCtrl) s = .next u ∧ t.des = u.des ∧
      t.desOut.sigValid = u.desOut.sigValid ∧ t.desOut.sig = u.desOut.sig) ∧
    (∃ u, exec (decodeDesRd l.desRd) s = .next u ∧
      t.desOut.rdValid = u.desOut.rdValid ∧ t.desOut.rdData = u.desOut.rdData) ∧
    (∃ u, exec (decodeAccCtrl l.accCtrl) s = .next u ∧ t.acc = u.acc ∧
      t.accOut.outcomeValid = u.accOut.outcomeValid ∧ t.accOut.outcome = u.accOut.outcome) ∧
    (∃ u, exec (decodeAccRd l.accRd) s = .next u ∧
      t.accOut.rdValid = u.accOut.rdValid ∧ t.accOut.rdData = u.accOut.rdData) ∧
    t.desOut.status = desStatus s.des ∧ t.accOut.status = accStatus s.acc

/-- 70_reset_and_hazards.md R125 and R128: an undefined input admits no step, and a run ends when no line is left. The names of
the two refusals are the model's (log entries 5 and 6). -/
def Obligations.NoStepWithoutADefinedInput : Prop :=
  ∀ s : State,
    (s.stimulus = [] → step s = .refused .endOfStimulus) ∧
    (∀ rest, s.stimulus = .undefined :: rest → step s = .refused .undefinedInput)

/-- Every step takes one input line, drives `in_ready = 1` (30_encoding.md R69), and leaves the instance's parameters
as they are: the capacities are no registers (10_state.md R30, R33). The list of lines to come is the model's own field
(log entry 5). -/
def Obligations.StepTakesOneLineAndKeepsTheParameters : Prop :=
  ∀ s t : State, step s = .next t →
    t.params = s.params ∧ t.desOut.inReady = true ∧ ∃ l, s.stimulus = .driven l :: t.stimulus

/-! ### Reset -/

/-- 10_state.md R34 and R35: the reset values, and the capacities of this hardware (00_scope.md R8). -/
def Obligations.ResetValues : Prop :=
  State.reset.des.tag = .awaitingA ∧
  (∀ X : Field, (accOf State.reset.des X).lenSet = false ∧ (accOf State.reset.des X).len = 0x00#8 ∧
    (accOf State.reset.des X).filled = 0 ∧ ∀ i, readCell (accOf State.reset.des X).storage i = 0x00#8) ∧
  (State.reset.acc.lenSet = false ∧ State.reset.acc.len = 0x00#8 ∧ State.reset.acc.filled = 0 ∧
    ∀ i, readCell State.reset.acc.storage i = 0x00#8) ∧
  State.reset.params.nA.val = 31 ∧ State.reset.params.nB.val = 40 ∧ State.reset.params.nC.val = 64

/-- 41_frame_deserializer.md R84: RST gives the constructed state from any state, an unused tag code and a power-on state
among them; it drives `sig_valid = 0`, `sig = 0b00` and changes nothing else. -/
def Obligations.RstConstructsTheBlockFromAnyState : Prop :=
  ∀ s : State,
    exec .rst s = .next
      { s with
        des :=
          { tag := .awaitingA
            accA := { lenSet := false, len := 0x00#8, filled := 0, storage := [] }
            accB := { lenSet := false, len := 0x00#8, filled := 0, storage := [] }
            accC := { lenSet := false, len := 0x00#8, filled := 0, storage := [] } }
        desOut := { s.desOut with sigValid := false, sig := 0b00#2 } } ∧
    ∀ i, readCell [] i = 0x00#8

/-- 10_state.md R36 and 70_reset_and_hazards.md R115, R116: from power-on, whatever the registers hold, one cycle with `rst` of
both blocks gives the reset value of every register, with `sig_valid = 0` and `outcome_valid = 0` in that cycle. That
the rules hold in a power-on state too is the model's choice (log entry 1). -/
def Obligations.OneResetCycleAfterPowerOn : Prop :=
  ∀ (p : Params) (l : Line) (rest : List CycleInput), l.desCtrl.getLsbD 9 = true → l.accCtrl.getLsbD 9 = true →
    ∃ t, step (State.powerOn p (.driven l :: rest)) = .next t ∧
      t.des = State.reset.des ∧ t.acc = State.reset.acc ∧ t.stimulus = rest ∧
      t.desOut.sigValid = false ∧ t.accOut.outcomeValid = false

/-- 60_exceptions.md R102: in a cycle with `rst`, the byte is discarded whatever `in_valid` and `in_byte` are: the block
is in its reset state after the edge and nothing is reported; and the read port shows what it shows in the same
cycle without `rst`. The same for the stand-alone accumulator. -/
def Obligations.RstTakesPriorityOverAByte : Prop :=
  ∀ (s t : State) (l : Line) (rest : List CycleInput), s.stimulus = .driven l :: rest → step s = .next t →
    (l.desCtrl.getLsbD 9 = true →
      t.des = State.reset.des ∧ t.desOut.sigValid = false ∧ t.desOut.sig = 0b00#2) ∧
    (l.accCtrl.getLsbD 9 = true →
      t.acc = State.reset.acc ∧ t.accOut.outcomeValid = false ∧ t.accOut.outcome = 0b00#2) ∧
    ∀ (w v : Word10) (t' : State),
      step { s with stimulus := .driven { l with desCtrl := w, accCtrl := v } :: rest } = .next t' →
      t'.desOut.rdValid = t.desOut.rdValid ∧ t'.desOut.rdData = t.desOut.rdData ∧
      t'.accOut.rdValid = t.accOut.rdValid ∧ t'.accOut.rdData = t.accOut.rdData

/-! ### field_accumulator -/

/-- 40_field_accumulator.md R72, case by case, for the stand-alone accumulator of any capacity N: a length byte above N is
rejected and writes nothing; a length byte up to N is accepted and completes the field when it is 0; a
complete accumulator reports Overfeed and writes nothing; a value byte is stored at `filled`. In each case
nothing else changes. The last part is the rule on flags: no step clears `len_set` or `complete`, and in a state that
keeps the accumulator's invariant `complete` becomes 1 exactly with the outcome FieldComplete (0b01). -/
def Obligations.AccFeedFollowsItsPseudocode : Prop :=
  ∀ (b : Byte) (s : State),
    (s.acc.lenSet = false → s.params.nAcc.val < b.toNat →
      exec (.accFeed b) s = .next { s with accOut := { s.accOut with outcomeValid := true, outcome := 0b10#2 } }) ∧
    (s.acc.lenSet = false → b.toNat ≤ s.params.nAcc.val →
      exec (.accFeed b) s = .next
        { s with
          acc := { s.acc with lenSet := true, len := b }
          accOut := { s.accOut with outcomeValid := true, outcome := if b.toNat = 0 then 0b01#2 else 0b00#2 } }) ∧
    (s.acc.lenSet = true → s.acc.filled = s.acc.len.toNat →
      exec (.accFeed b) s = .next { s with accOut := { s.accOut with outcomeValid := true, outcome := 0b11#2 } }) ∧
    (s.acc.lenSet = true → s.acc.filled < s.acc.len.toNat → s.acc.len.toNat ≤ s.params.nAcc.val →
      exec (.accFeed b) s = .next
        { s with
          acc := { s.acc with storage := writeCell s.acc.storage s.acc.filled b, filled := s.acc.filled + 1 }
          accOut :=
            { s.accOut with
              outcomeValid := true
              outcome := if s.acc.filled + 1 = s.acc.len.toNat then 0b01#2 else 0b00#2 } }) ∧
    (∀ t, exec (.accFeed b) s = .next t →
      (s.acc.lenSet = true → t.acc.lenSet = true) ∧
      (isComplete s.acc = true → isComplete t.acc = true) ∧
      (AccInv s.params.nAcc s.acc → isComplete s.acc = false →
        (isComplete t.acc = true ↔ t.accOut.outcome = 0b01#2)))

/-- The frame of ACC.FEED (R72, R73, 20_memory.md R45): the deserializer, the parameters, the inputs and the read and
status outputs are as before; every storage cell reads as before but the one a value byte is stored to, the
cell `filled` of an accumulator whose length is set and that is not complete, which reads the byte. -/
def Obligations.AccFeedFrame : Prop :=
  ∀ (b : Byte) (s t : State), exec (.accFeed b) s = .next t →
    t.params = s.params ∧ t.des = s.des ∧ t.stimulus = s.stimulus ∧ t.desOut = s.desOut ∧
    t.accOut = { s.accOut with outcomeValid := t.accOut.outcomeValid, outcome := t.accOut.outcome } ∧
    ∀ j, readCell t.acc.storage j =
      if s.acc.lenSet = true ∧ isComplete s.acc = false ∧ j = s.acc.filled then b else readCell s.acc.storage j

/-- 40_field_accumulator.md R73: an accepted length byte writes `len` with `len_set` and nothing else; a value byte writes
one storage cell with `filled` and nothing else; LengthInvalid (0b10) and Overfeed (0b11) write nothing. -/
def Obligations.OneDatumWrittenPerAcceptedFeed : Prop :=
  ∀ (b : Byte) (s t : State), exec (.accFeed b) s = .next t →
    (t.accOut.outcome = 0b00#2 ∨ t.accOut.outcome = 0b01#2 →
      (s.acc.lenSet = false ∧ t.acc = { s.acc with lenSet := true, len := b }) ∨
      (s.acc.lenSet = true ∧ t.acc.lenSet = true ∧ t.acc.len = s.acc.len ∧ t.acc.filled = s.acc.filled + 1 ∧
        readCell t.acc.storage s.acc.filled = b ∧
        ∀ j, j ≠ s.acc.filled → readCell t.acc.storage j = readCell s.acc.storage j)) ∧
    (t.accOut.outcome = 0b10#2 ∨ t.accOut.outcome = 0b11#2 → t.acc = s.acc)

/-- 40_field_accumulator.md R74: ACC.IDLE drives `outcome_valid = 0`, `outcome = 0b00` and changes no register. -/
def Obligations.AccIdleChangesNoRegister : Prop :=
  ∀ s : State, exec .accIdle s = .next { s with accOut := { s.accOut with outcomeValid := false, outcome := 0b00#2 } }

/-- 40_field_accumulator.md R75: ACC.CLEAR, from any state, leaves `len_set = 0`, `len = 0x00`, `filled = 0` and every cell
0x00, drives `outcome_valid = 0`, `outcome = 0b00`, and changes nothing else. -/
def Obligations.AccClearEmptiesTheAccumulator : Prop :=
  ∀ s : State,
    ∃ t, exec .accClear s = .next t ∧
      t.acc.lenSet = false ∧ t.acc.len = 0x00#8 ∧ t.acc.filled = 0 ∧ (∀ i, readCell t.acc.storage i = 0x00#8) ∧
      t.acc.storage.wf ∧ isComplete t.acc = false ∧
      t.accOut = { s.accOut with outcomeValid := false, outcome := 0b00#2 } ∧
      t.params = s.params ∧ t.des = s.des ∧ t.stimulus = s.stimulus ∧ t.desOut = s.desOut

/-- 40_field_accumulator.md R76: ACC.RD shows the cell when the index is below `filled`, complete or not, and 0, 0x00 at or
beyond it; nothing else changes. (`filled <= N` in every reachable state, 10_state.md R22; the first case names a cell.) -/
def Obligations.AccRdReadsTheValidRange : Prop :=
  ∀ (i : Byte) (s : State),
    (i.toNat < s.acc.filled → i.toNat < s.params.nAcc.val →
      exec (.accRd i) s = .next
        { s with accOut := { s.accOut with rdValid := true, rdData := readCell s.acc.storage i.toNat } }) ∧
    (s.acc.filled ≤ i.toNat →
      exec (.accRd i) s = .next { s with accOut := { s.accOut with rdValid := false, rdData := 0x00#8 } })

/-- 40_field_accumulator.md R77: from an empty accumulator, a length byte L <= N and then L value bytes report NeedsMore for
every byte but the last and FieldComplete on the last; then `filled = L` and cell k holds the k-th value byte.
A length byte above N reports LengthInvalid and writes no register. -/
def Obligations.AccFeedSequenceCompletesOnTheLastByte : Prop :=
  ∀ (s : State), s.acc.lenSet = false → s.acc.filled = 0 →
    (∀ values : List Byte, values.length ≤ s.params.nAcc.val →
      ∃ t, feedRun (fieldBytes values) s = some (List.replicate values.length 0b00#2 ++ [0b01#2], t) ∧
        t.acc.lenSet = true ∧ t.acc.len.toNat = values.length ∧ t.acc.filled = values.length ∧
        ∀ (k : Nat) (h : k < values.length), readCell t.acc.storage k = values[k]) ∧
    (∀ b : Byte, s.params.nAcc.val < b.toNat →
      ∃ t, exec (.accFeed b) s = .next t ∧ t.accOut.outcome = 0b10#2 ∧ t.acc = s.acc)

/-! ### Registers of every accumulator -/

/-- 10_state.md R17: `len_set` goes from 0 to 1 only when a length byte is accepted and from 1 to 0 only on reset, and
while it is 1 `len` is not written. For the stand-alone accumulator and for each of the deserializer's. -/
def Obligations.LengthIsSetOnceBetweenResets : Prop :=
  ∀ (i : Instr) (s t : State), exec i s = .next t →
    ((s.acc.lenSet = true → t.acc.lenSet = false → i = .accClear) ∧
      (s.acc.lenSet = false → t.acc.lenSet = true →
        ∃ b, i = .accFeed b ∧ b.toNat ≤ s.params.nAcc.val ∧ t.acc.len = b) ∧
      (s.acc.lenSet = true → t.acc.lenSet = true → t.acc.len = s.acc.len)) ∧
    ∀ X : Field,
      ((accOf s.des X).lenSet = true → (accOf t.des X).lenSet = false → i = .rst) ∧
      ((accOf s.des X).lenSet = false → (accOf t.des X).lenSet = true →
        ∃ b, i = .adv b ∧ s.des.tag = awaitingTag X ∧ b.toNat ≤ (capacityOf s.params X).val ∧ (accOf t.des X).len = b) ∧
      ((accOf s.des X).lenSet = true → (accOf t.des X).lenSet = true → (accOf t.des X).len = (accOf s.des X).len)

/-- 10_state.md R19: `filled` changes in two ways only: it grows by exactly 1 in a step that stores a value byte, which
then stands at the old `filled`, and it returns to 0 on reset. -/
def Obligations.FilledGrowsByOneOrResets : Prop :=
  ∀ (i : Instr) (s t : State), exec i s = .next t →
    (t.acc.filled = s.acc.filled ∨ (i = .accClear ∧ t.acc.filled = 0) ∨
      (t.acc.filled = s.acc.filled + 1 ∧
        ∃ b, i = .accFeed b ∧ s.acc.lenSet = true ∧ readCell t.acc.storage s.acc.filled = b)) ∧
    ∀ X : Field,
      (accOf t.des X).filled = (accOf s.des X).filled ∨ (i = .rst ∧ (accOf t.des X).filled = 0) ∨
      ((accOf t.des X).filled = (accOf s.des X).filled + 1 ∧
        ∃ b, i = .adv b ∧ s.des.tag = awaitingTag X ∧ (accOf s.des X).lenSet = true ∧
          readCell (accOf t.des X).storage (accOf s.des X).filled = b)

/-- 10_state.md R20, R22 (I-c), 20_memory.md R38, R44: apart from reset, a storage cell changes only when a value byte is stored
to it, which happens only at the index `filled`, below the capacity. -/
def Obligations.StorageChangesOnlyAtFilled : Prop :=
  ∀ (i : Instr) (s t : State) (j : Nat), exec i s = .next t →
    (readCell t.acc.storage j ≠ readCell s.acc.storage j →
      i = .accClear ∨
      ∃ b, i = .accFeed b ∧ s.acc.lenSet = true ∧ j = s.acc.filled ∧ j < s.params.nAcc.val ∧
        readCell t.acc.storage j = b) ∧
    ∀ X : Field, readCell (accOf t.des X).storage j ≠ readCell (accOf s.des X).storage j →
      i = .rst ∨
      ∃ b, i = .adv b ∧ s.des.tag = awaitingTag X ∧ (accOf s.des X).lenSet = true ∧ j = (accOf s.des X).filled ∧
        j < (capacityOf s.params X).val ∧ readCell (accOf t.des X).storage j = b

/-! ### frame_deserializer_fsm -/

/-- 41_frame_deserializer.md R79, case by case. In a terminal state or an unused code: AlreadyDone and nothing else. With
field X active: a length byte above X's capacity gives Error and Malformed; a length byte 0 completes the field;
any other length byte is accepted; a value byte is stored, and completes the field when it is the last; an
accumulator that is already complete gives Error and Malformed. Nothing else changes. -/
def Obligations.AdvFollowsItsPseudocode : Prop :=
  ∀ (b : Byte) (s : State),
    (s.des.tag ∈ [Tag.complete, .error, .unused5, .unused6, .unused7] →
      exec (.adv b) s = .next { s with desOut := { s.desOut with sigValid := true, sig := 0b11#2 } }) ∧
    ∀ X : Field, s.des.tag = awaitingTag X →
      let a := accOf s.des X
      let n := (capacityOf s.params X).val
      let answers := fun (a' : Accumulator) (tag : Tag) (sig : BitVec 2) =>
        exec (.adv b) s = .next
          { s with
            des := { withAcc s.des X a' with tag := tag }
            desOut := { s.desOut with sigValid := true, sig := sig } }
      let lastSig : BitVec 2 := if X = .c then 0b01#2 else 0b00#2
      (a.lenSet = false → n < b.toNat → answers a .error 0b10#2) ∧
      (a.lenSet = false → b.toNat = 0 → answers { a with lenSet := true, len := b } (nextTag X) lastSig) ∧
      (a.lenSet = false → 0 < b.toNat → b.toNat ≤ n →
        answers { a with lenSet := true, len := b } s.des.tag 0b00#2) ∧
      (a.lenSet = true → a.filled + 1 < a.len.toNat → a.len.toNat ≤ n →
        answers { a with storage := writeCell a.storage a.filled b, filled := a.filled + 1 } s.des.tag 0b00#2) ∧
      (a.lenSet = true → a.filled + 1 = a.len.toNat → a.len.toNat ≤ n →
        answers { a with storage := writeCell a.storage a.filled b, filled := a.filled + 1 } (nextTag X) lastSig) ∧
      (a.lenSet = true → a.filled = a.len.toNat → answers a .error 0b10#2)

/-- 41_frame_deserializer.md R80: the next tag and the Signal of an ADV are those of the state-transition table, for the
current tag and the report of the active accumulator; in a terminal state the tag stays and the Signal is AlreadyDone. -/
def Obligations.AdvFollowsTheTransitionTable : Prop :=
  ∀ (b : Byte) (s : State),
    (∀ (X : Field) (a : Accumulator) (o : Report) (tag : Tag) (g : Signal),
      s.des.tag = awaitingTag X → feedAcc (capacityOf s.params X) b (accOf s.des X) = .ok (a, o) →
      transitionTable s.des.tag o = some (tag, g) →
      ∃ t, exec (.adv b) s = .next t ∧ t.des.tag = tag ∧ t.desOut.sigValid = true ∧ t.desOut.sig = signalCode g) ∧
    (s.des.tag = .complete ∨ s.des.tag = .error →
      ∃ t, exec (.adv b) s = .next t ∧ t.des.tag = s.des.tag ∧ t.desOut.sigValid = true ∧
        t.desOut.sig = signalCode .alreadyDone)

/-- The frame of ADV (R79, R81, 20_memory.md R45): the stand-alone accumulator, the parameters, the inputs and the read
and status outputs are as before; an accumulator that is not active keeps every register; and every storage
cell reads as before but the one a value byte is stored to: the cell `filled` of the active accumulator,
when its length is set and it is not complete. -/
def Obligations.AdvFrame : Prop :=
  ∀ (b : Byte) (s t : State), exec (.adv b) s = .next t →
    t.params = s.params ∧ t.acc = s.acc ∧ t.stimulus = s.stimulus ∧ t.accOut = s.accOut ∧
    t.desOut = { s.desOut with sigValid := t.desOut.sigValid, sig := t.desOut.sig } ∧
    ∀ Y : Field,
      (s.des.tag ≠ awaitingTag Y → accOf t.des Y = accOf s.des Y) ∧
      ∀ j, readCell (accOf t.des Y).storage j =
        if s.des.tag = awaitingTag Y ∧ (accOf s.des Y).lenSet = true ∧ isComplete (accOf s.des Y) = false ∧
          j = (accOf s.des Y).filled
        then b else readCell (accOf s.des Y).storage j

/-- 41_frame_deserializer.md R81: an ADV in an active tag decides from the active accumulator alone. Two states that agree on
the parameters, the tag and the active accumulator give the same tag, the same Signal and the same registers
of that accumulator, whatever the other two hold. -/
def Obligations.AdvReadsOnlyTheActiveAccumulator : Prop :=
  ∀ (b : Byte) (X : Field) (s s' t : State), s.des.tag = awaitingTag X → s'.des.tag = s.des.tag →
    s'.params = s.params → accOf s'.des X = accOf s.des X → exec (.adv b) s = .next t →
    ∃ t', exec (.adv b) s' = .next t' ∧ t'.des.tag = t.des.tag ∧ t'.desOut.sig = t.desOut.sig ∧
      accOf t'.des X = accOf t.des X ∧ ∀ Y, Y ≠ X → accOf t'.des Y = accOf s'.des Y ∧ accOf t.des Y = accOf s.des Y

/-- 41_frame_deserializer.md R82: in Complete or Error an ADV writes no register and reports AlreadyDone, and no operation
but RST changes the deserializer. -/
def Obligations.TerminalStatesAreInert : Prop :=
  ∀ s : State, s.des.tag = .complete ∨ s.des.tag = .error →
    (∀ b, exec (.adv b) s = .next { s with desOut := { s.desOut with sigValid := true, sig := 0b11#2 } }) ∧
    (∀ i t, exec i s = .next t → i ≠ .rst → t.des = s.des)

/-- 41_frame_deserializer.md R85: with an unused tag code the block is as in a terminal state: ADV writes nothing and reports
AlreadyDone, RD is invalid, and only RST changes the deserializer. -/
def Obligations.UnusedTagCodesAreInert : Prop :=
  ∀ s : State, s.des.tag = .unused5 ∨ s.des.tag = .unused6 ∨ s.des.tag = .unused7 →
    (∀ b, exec (.adv b) s = .next { s with desOut := { s.desOut with sigValid := true, sig := 0b11#2 } }) ∧
    (∀ f i, exec (.rd f i) s = .next { s with desOut := { s.desOut with rdValid := false, rdData := 0x00#8 } }) ∧
    (∀ i t, exec i s = .next t → i ≠ .rst → t.des = s.des) ∧
    (∃ t, exec .rst s = .next t ∧ t.des = State.reset.des)

/-- 41_frame_deserializer.md R83: IDLE writes no register and drives `sig_valid = 0`, `sig = 0b00`. -/
def Obligations.IdleWritesNoRegister : Prop :=
  ∀ s : State, exec .idle s = .next { s with desOut := { s.desOut with sigValid := false, sig := 0b00#2 } }

/-- 41_frame_deserializer.md R86: RD shows the byte when the tag is Complete, the field code is legal and the index is below
the field's `filled`; in every other case `rd_valid = 0`, `rd_data = 0x00`. Nothing else changes. (`filled <= N` in every
reachable state, 10_state.md R22; the first case names a cell.) -/
def Obligations.RdReadsACompletedFrame : Prop :=
  ∀ (f : FieldSel) (i : Byte) (s : State),
    (∀ X : Field, f = selectOf X → s.des.tag = .complete → i.toNat < (accOf s.des X).filled →
      i.toNat < (capacityOf s.params X).val →
      exec (.rd f i) s = .next
        { s with desOut := { s.desOut with rdValid := true, rdData := readCell (accOf s.des X).storage i.toNat } }) ∧
    (s.des.tag ≠ .complete ∨ f = .reserved ∨ (∃ X : Field, f = selectOf X ∧ (accOf s.des X).filled ≤ i.toNat) →
      exec (.rd f i) s = .next { s with desOut := { s.desOut with rdValid := false, rdData := 0x00#8 } })

/-- 20_memory.md R46: reads have no side effect. RD and ACC.RD change no register, and the same read done again shows the same. -/
def Obligations.ReadsHaveNoSideEffect : Prop :=
  ∀ (f : FieldSel) (i : Byte) (s : State),
    (∃ t, exec (.rd f i) s = .next t ∧ t.des = s.des ∧ t.acc = s.acc ∧ t.params = s.params ∧
      t.stimulus = s.stimulus ∧ t.accOut = s.accOut ∧ exec (.rd f i) t = .next t) ∧
    (∃ t, exec (.accRd i) s = .next t ∧ t.des = s.des ∧ t.acc = s.acc ∧ t.params = s.params ∧
      t.stimulus = s.stimulus ∧ t.desOut = s.desOut ∧ exec (.accRd i) t = .next t)

/-- 60_exceptions.md R98: the state after a Malformed step equals the state before it, except for `tag`, which is Error, and
the report itself; and every read is invalid from then on. -/
def Obligations.MalformedWritesOnlyTheTag : Prop :=
  ∀ (b : Byte) (s t : State), exec (.adv b) s = .next t → t.desOut.sig = 0b10#2 →
    t = { s with
          des := { s.des with tag := .error }
          desOut := { s.desOut with sigValid := true, sig := 0b10#2 } } ∧
    ∀ f i, ∃ u, exec (.rd f i) t = .next u ∧ u.desOut.rdValid = false ∧ u.desOut.rdData = 0x00#8

/-- 60_exceptions.md R94: Malformed is raised exactly for a length byte above the active field's capacity (31, 40, 64
in this hardware). In a state that keeps the invariants. -/
def Obligations.MalformedExactlyForAnOversizedLength : Prop :=
  ∀ (b : Byte) (s t : State), s.Inv → exec (.adv b) s = .next t →
    (t.desOut.sig = 0b10#2 ↔
      ∃ X : Field, s.des.tag = awaitingTag X ∧ (accOf s.des X).lenSet = false ∧
        (capacityOf s.params X).val < b.toNat)

/-- 41_frame_deserializer.md R88: in every state that keeps the invariants, the accumulator an ADV feeds is not complete,
so its report is never Overfeed. -/
def Obligations.OverfeedIsUnreachableInTheDeserializer : Prop :=
  ∀ (b : Byte) (s : State) (X : Field), s.Inv → s.des.tag = awaitingTag X →
    isComplete (accOf s.des X) = false ∧
    ∃ a o, feedAcc (capacityOf s.params X) b (accOf s.des X) = .ok (a, o) ∧ o ≠ .overfeed

/-- 41_frame_deserializer.md R87: `sig_valid = 1` exactly in ADV cycles, `sig` is 0b00 otherwise, and FrameComplete is reported
in exactly the cycle whose edge moves the tag to Complete. -/
def Obligations.SignalBelongsToItsCycle : Prop :=
  ∀ (s t : State) (l : Line) (rest : List CycleInput), s.stimulus = .driven l :: rest → step s = .next t →
    (t.desOut.sigValid = true ↔ ∃ b, decode .desCtrl l.desCtrl.toNat = .ok (.adv b)) ∧
    (t.desOut.sigValid = false → t.desOut.sig = 0b00#2) ∧
    (t.desOut.sig = 0b01#2 ↔ s.des.tag ≠ .complete ∧ t.des.tag = .complete)

/-- 70_reset_and_hazards.md R120: a read in the cycle that reports FrameComplete is invalid, and a read in the next cycle shows
the frame; a read in a RST cycle still shows the old frame. -/
def Obligations.FrameIsReadableFromTheNextCycle : Prop :=
  ∀ (s t : State) (l : Line) (rest : List CycleInput), s.Inv → s.stimulus = .driven l :: rest → step s = .next t →
    (t.desOut.sig = 0b01#2 →
      t.desOut.rdValid = false ∧
      ∀ (X : Field) (i : Byte), i.toNat < (accOf t.des X).len.toNat →
        ∃ u, exec (.rd (selectOf X) i) t = .next u ∧ u.desOut.rdValid = true ∧
          u.desOut.rdData = readCell (accOf t.des X).storage i.toNat) ∧
    (∀ (X : Field) (i : Byte), s.des.tag = .complete → l.desCtrl.getLsbD 9 = true → l.desRd = rdWord (selectOf X) i →
      i.toNat < (accOf s.des X).len.toNat →
      t.des = State.reset.des ∧ t.desOut.rdValid = true ∧ t.desOut.rdData = readCell (accOf s.des X).storage i.toNat)

/-- 41_frame_deserializer.md R92: when the tag is Complete, in a state that keeps the invariants, RD and the status outputs
offer the three declared lengths and exactly the payload bytes 0 to `len_X - 1` of each field. -/
def Obligations.CompleteFrameIsHandedOff : Prop :=
  ∀ (s : State) (X : Field) (i : Byte), s.Inv → s.des.tag = .complete →
    (i.toNat < (accOf s.des X).len.toNat →
      exec (.rd (selectOf X) i) s = .next
        { s with desOut := { s.desOut with rdValid := true, rdData := readCell (accOf s.des X).storage i.toNat } }) ∧
    ((accOf s.des X).len.toNat ≤ i.toNat →
      exec (.rd (selectOf X) i) s = .next { s with desOut := { s.desOut with rdValid := false, rdData := 0x00#8 } }) ∧
    (desStatus s.des).stLenA = s.des.accA.len ∧ (desStatus s.des).stLenB = s.des.accB.len ∧
    (desStatus s.des).stLenC = s.des.accC.len ∧ (desStatus s.des).stTag = 0b011#3

/-- 10_state.md R29, 60_exceptions.md R99: when an ADV reports Malformed for field X, the status outputs afterwards name X: it is
the first field, in the order A, B, C, with `len_set = 0`. -/
def Obligations.RejectedFieldIsRecoverable : Prop :=
  ∀ (b : Byte) (s t : State) (X : Field), s.Inv → s.des.tag = awaitingTag X → exec (.adv b) s = .next t →
    t.desOut.sig = 0b10#2 → firstUnsetField (desStatus t.des) = some X

/-- 10_state.md R27: the tag moves only in an ADV of an active tag, to its own next tag or to Error, and by RST to AwaitingA.
No other operation changes it. -/
def Obligations.TagMovesOnlyByAdvAndRst : Prop :=
  ∀ (i : Instr) (s t : State), exec i s = .next t → t.des.tag ≠ s.des.tag →
    (i = .rst ∧ t.des.tag = .awaitingA) ∨
    (∃ b, i = .adv b ∧
      ((s.des.tag = .awaitingA ∧ (t.des.tag = .awaitingB ∨ t.des.tag = .error)) ∨
       (s.des.tag = .awaitingB ∧ (t.des.tag = .awaitingC ∨ t.des.tag = .error)) ∨
       (s.des.tag = .awaitingC ∧ (t.des.tag = .complete ∨ t.des.tag = .error))))

/-- 10_state.md R31 and R32: the status outputs of a cycle are the registers before its edge; in a state that keeps the
invariants the 8-bit `filled` outputs are exact and within their legal values. -/
def Obligations.StatusOutputsShowTheRegisters : Prop :=
  ∀ s t : State, s.Inv → step s = .next t →
    t.desOut.status.stTag = tagCode s.des.tag ∧ t.desOut.status.stTag.toNat ≤ 4 ∧
    (t.desOut.status.stLenSetA = s.des.accA.lenSet ∧ t.desOut.status.stLenA = s.des.accA.len ∧
      t.desOut.status.stFilledA.toNat = s.des.accA.filled ∧ s.des.accA.len.toNat ≤ s.params.nA.val ∧
      s.des.accA.filled ≤ s.params.nA.val) ∧
    (t.desOut.status.stLenSetB = s.des.accB.lenSet ∧ t.desOut.status.stLenB = s.des.accB.len ∧
      t.desOut.status.stFilledB.toNat = s.des.accB.filled ∧ s.des.accB.len.toNat ≤ s.params.nB.val ∧
      s.des.accB.filled ≤ s.params.nB.val) ∧
    (t.desOut.status.stLenSetC = s.des.accC.lenSet ∧ t.desOut.status.stLenC = s.des.accC.len ∧
      t.desOut.status.stFilledC.toNat = s.des.accC.filled ∧ s.des.accC.len.toNat ≤ s.params.nC.val ∧
      s.des.accC.filled ≤ s.params.nC.val) ∧
    (t.accOut.status.lenSet = s.acc.lenSet ∧ t.accOut.status.len = s.acc.len ∧
      t.accOut.status.filled.toNat = s.acc.filled ∧ s.acc.len.toNat ≤ s.params.nAcc.val ∧
      s.acc.filled ≤ s.params.nAcc.val ∧
      (t.accOut.status.complete = true ↔ s.acc.lenSet = true ∧ s.acc.filled = s.acc.len.toNat))

/-- 30_encoding.md R56: the wiring of the deserializer. After a cycle, each accumulator X holds what a stand-alone
accumulator of X's capacity and registers holds after the ACC_CTRL word
`{rst, in_valid AND NOT rst AND (tag == Awaiting<X>), in_byte}`. -/
def Obligations.DeserializerIsThreeWiredAccumulators : Prop :=
  ∀ (s t : State) (l : Line) (rest : List CycleInput), s.stimulus = .driven l :: rest → step s = .next t →
    ∀ X : Field, ∃ u,
      exec
        (decodeAccCtrl
          (ctrlWord (l.desCtrl.getLsbD 9)
            (l.desCtrl.getLsbD 8 && !l.desCtrl.getLsbD 9 && decide (s.des.tag = awaitingTag X))
            (l.desCtrl.extractLsb' 0 8)))
        { s with acc := accOf s.des X, params := { s.params with nAcc := capacityOf s.params X } } = .next u ∧
      accOf t.des X = u.acc

/-! ### Invariants and safety -/

/-- The reset state keeps the invariants. -/
def Obligations.ResetStateIsGood : Prop := State.reset.Inv

/-- 10_state.md R22, R28, R29, R19, 20_memory.md R38: every step keeps the invariants: the memory's canonical form inside the storage
space, `filled <= len <= N`, the per-tag table of complete and empty accumulators, and a legal tag. -/
def Obligations.StepKeepsTheInvariants : Prop :=
  ∀ s t : State, s.Inv → step s = .next t → t.Inv

/-- 30_encoding.md R64, R65, R68, 20_memory.md R44: in a state that keeps the invariants every line of input completes, whatever its
four words are: no word is illegal, nothing stalls, and no write falls outside the storage space. -/
def Obligations.EveryLineCompletesInAGoodState : Prop :=
  ∀ (s : State) (l : Line) (rest : List CycleInput), s.Inv → s.stimulus = .driven l :: rest → ∃ t, step s = .next t

/-- When an operation stops. RST, IDLE, RD and the accumulator's CLEAR, IDLE and RD complete in every state; ADV and
ACC.FEED complete in every state but one with a value byte to store and no cell left for it, which no state that
keeps the invariants is (20_memory.md R44). The fault there is the model's own (log entry 8). -/
def Obligations.OperationsStopOnlyForWantOfACell : Prop :=
  ∀ (i : Instr) (s : State),
    ((∃ t, exec i s = .next t) ∨
      (∃ b, i = .accFeed b ∧ s.acc.lenSet = true ∧ s.acc.filled ≠ s.acc.len.toNat ∧ s.params.nAcc.val ≤ s.acc.filled ∧
        exec i s = .fault (.noSuchCell s.acc.filled)) ∨
      (∃ b X, i = .adv b ∧ s.des.tag = awaitingTag X ∧ (accOf s.des X).lenSet = true ∧
        (accOf s.des X).filled ≠ (accOf s.des X).len.toNat ∧ (capacityOf s.params X).val ≤ (accOf s.des X).filled ∧
        exec i s = .fault (.noSuchCell (accOf s.des X).filled))) ∧
    (s.Inv → ∃ t, exec i s = .next t ∧ t.Inv)

/-- 10_state.md R37, 60_exceptions.md R111: the two instances share no state. What the deserializer does in a cycle depends on its
own registers, capacities and words alone, and the same of the stand-alone accumulator. That the machine holds one of
each is the model's choice (log entry 4). -/
def Obligations.InstancesShareNoState : Prop :=
  ∀ (s s' t t' : State) (l l' : Line) (rest rest' : List CycleInput),
    s.stimulus = .driven l :: rest → s'.stimulus = .driven l' :: rest' → step s = .next t → step s' = .next t' →
    (s.des = s'.des → (∀ X, capacityOf s.params X = capacityOf s'.params X) → l.desCtrl = l'.desCtrl →
      l.desRd = l'.desRd → t.des = t'.des ∧ t.desOut = t'.desOut) ∧
    (s.acc = s'.acc → s.params.nAcc = s'.params.nAcc → l.accCtrl = l'.accCtrl → l.accRd = l'.accRd →
      t.acc = t'.acc ∧ t.accOut = t'.accOut)

/-- 10_state.md R23: no output depends on the cells at and beyond `filled`. Two machines that agree on everything else
step alike: the same stop, or next states with the same outputs that again agree on everything but such cells. -/
def Obligations.CellsBeyondFilledAreUnobservable : Prop :=
  ∀ s s' : State, s.SameVisible s' →
    (∀ t, step s = .next t → ∃ t', step s' = .next t' ∧ t.SameVisible t') ∧
    (∀ f, step s = .fault f → step s' = .fault f) ∧
    (∀ r, step s = .refused r → step s' = .refused r)

/-! ### Runs -/

/-- 41_frame_deserializer.md R90 and R91: feed the lines of FRAME, with lengths within the capacities, to a deserializer in its
reset state, whatever the rest of the machine holds. After k of its `3 + La + Lb + Lc` bytes the tag is
AwaitingA up to k = La, AwaitingB up to 1 + La + Lb, AwaitingC before the last byte and Complete after it;
every byte but the last reports Continue and the last FrameComplete; and the fields hold the payloads. That the lines
drive the other block's ports quiet is the model's choice (log entry 19), and R90 says nothing of those ports. -/
def Obligations.ValidFrameReachesComplete : Prop :=
  ∀ (s : State) (as bs cs : List Byte) (rest : List CycleInput), s.des = State.reset.des →
    as.length ≤ s.params.nA.val → bs.length ≤ s.params.nB.val → cs.length ≤ s.params.nC.val →
    s.stimulus = asmInputs (advLines (frameBytes as bs cs)) ++ rest →
    (∀ k, k ≤ 3 + as.length + bs.length + cs.length →
      ∃ t, Sys2Proof.core.run k s = .next t ∧
        t.des.tag =
          (if k ≤ as.length then Tag.awaitingA
           else if k ≤ 1 + as.length + bs.length then .awaitingB
           else if k < 3 + as.length + bs.length + cs.length then .awaitingC
           else .complete) ∧
        (0 < k →
          t.desOut.sigValid = true ∧
          t.desOut.sig = (if k = 3 + as.length + bs.length + cs.length then 0b01#2 else 0b00#2))) ∧
    ∃ t, Sys2Proof.core.run (3 + as.length + bs.length + cs.length) s = .next t ∧ t.stimulus = rest ∧
      (t.des.accA.len.toNat = as.length ∧ t.des.accA.filled = as.length ∧
        ∀ (j : Nat) (h : j < as.length), readCell t.des.accA.storage j = as[j]) ∧
      (t.des.accB.len.toNat = bs.length ∧ t.des.accB.filled = bs.length ∧
        ∀ (j : Nat) (h : j < bs.length), readCell t.des.accB.storage j = bs[j]) ∧
      (t.des.accC.len.toNat = cs.length ∧ t.des.accC.filled = cs.length ∧
        ∀ (j : Nat) (h : j < cs.length), readCell t.des.accC.storage j = cs[j])

/-- 60_exceptions.md R105, 70_reset_and_hazards.md R117: the only way out of Complete or Error is RST. Over any number of
cycles without `rst`, whatever bytes are presented, the deserializer keeps every register. -/
def Obligations.OnlyRstLeavesATerminalState : Prop :=
  ∀ (k : Nat) (s t : State), s.des.tag = .complete ∨ s.des.tag = .error →
    (∀ l, CycleInput.driven l ∈ s.stimulus.take k → l.desCtrl.getLsbD 9 = false) →
    Sys2Proof.core.run k s = .next t → t.des = s.des

/-- 41_frame_deserializer.md R83, 70_reset_and_hazards.md R124, 30_encoding.md R71: WAIT k leaves every register of both blocks as it was, from any
state and for any k: there is no time-out. What is said of the stand-alone accumulator rests on the model's choice that
a deserializer line drives its ports quiet (log entry 19). -/
def Obligations.WaitingChangesNoRegister : Prop :=
  ∀ (k : Nat) (s : State) (ls : List AsmLine) (rest : List CycleInput), expand (.wait k) = some ls →
    s.stimulus = asmInputs ls ++ rest →
    ∃ t, Sys2Proof.core.run k s = .next t ∧ t.des = s.des ∧ t.acc = s.acc ∧ t.stimulus = rest

/-- 70_reset_and_hazards.md R128: a run in which some line reports FrameComplete succeeds: no line after it, up to the next RST,
reports Malformed. From any state and for any input. -/
def Obligations.ReportedFrameSucceeds : Prop :=
  ∀ (k : Nat) (s : State), (∃ p ∈ observe k s, reports .frameComplete p.2 = true) → frameSucceeds (observe k s) = true
end

