-- ==== Sys2Proof/Laws/Decode.lean ====
section
/-! SUPPORT. The decoder on bits that fit a port and on bits that do not. -/

namespace Sys2Proof

/-- A word of the port's width selects an operation. -/
theorem decode_of_lt {f : Format} {w : Nat} (h : w < 2 ^ f.width) : decode f w = .ok (decodeWord f w) := if_pos h

/-- Wider bits are refused by name. -/
theorem decode_of_le {f : Format} {w : Nat} (h : 2 ^ f.width ≤ w) : decode f w = .error (.wordTooWide f) :=
  if_neg (Nat.not_lt.2 h)

@[simp] theorem decode_desCtrl_toNat (w : Word10) : decode .desCtrl w.toNat = .ok (decodeDesCtrl w) := by
  rw [decode_of_lt w.isLt, decodeWord, BitVec.ofNat_toNat, BitVec.setWidth_eq]

@[simp] theorem decode_desRd_toNat (w : Word10) : decode .desRd w.toNat = .ok (decodeDesRd w) := by
  rw [decode_of_lt w.isLt, decodeWord, BitVec.ofNat_toNat, BitVec.setWidth_eq]

@[simp] theorem decode_accCtrl_toNat (w : Word10) : decode .accCtrl w.toNat = .ok (decodeAccCtrl w) := by
  rw [decode_of_lt w.isLt, decodeWord, BitVec.ofNat_toNat, BitVec.setWidth_eq]

@[simp] theorem decode_accRd_toNat (w : Byte) : decode .accRd w.toNat = .ok (decodeAccRd w) := by
  rw [decode_of_lt w.isLt, decodeWord, BitVec.ofNat_toNat, BitVec.setWidth_eq]

/-- The bits of a control word, and the byte, read back from its parts (30_encoding.md R57, R59). -/
@[simp] theorem ctrlRst_ctrlWord (r v : Bool) (b : Byte) : ctrlRst (ctrlWord r v b) = r := by
  revert b
  cases r <;> cases v <;> decide

@[simp] theorem ctrlValid_ctrlWord (r v : Bool) (b : Byte) : ctrlValid (ctrlWord r v b) = v := by
  revert b
  cases r <;> cases v <;> decide

@[simp] theorem lowByte_ctrlWord (r v : Bool) (b : Byte) : lowByte (ctrlWord r v b) = b := by
  revert b
  cases r <;> cases v <;> decide

@[simp] theorem rdFieldBits_rdWord (f : FieldSel) (i : Byte) : FieldSel.ofCode (rdFieldBits (rdWord f i)) = f := by
  revert i
  cases f <;> decide

@[simp] theorem lowByte_rdWord (f : FieldSel) (i : Byte) : lowByte (rdWord f i) = i := by
  revert i
  cases f <;> decide

end Sys2Proof
end

