-- ==== Sys2Proof/Laws/Memory.lean ====
section
/-! SUPPORT. The laws of the storage buffer: a read after a write, and the canonical form that every write keeps. -/

namespace Sys2Proof.Machine

theorem readCell_insertCell_same (m : Memory) (i : Nat) (v : Byte) (h : ∀ c ∈ m, c.1 ≠ i) :
    readCell (insertCell i v m) i = v := by
  induction m with
  | nil => simp [insertCell, readCell]
  | cons c rest ih =>
    have hc := h c (by simp)
    by_cases hlt : i < c.1
    · simp [insertCell, hlt, readCell]
    · simp only [insertCell, hlt, if_false, readCell, hc]
      exact ih fun d hd => h d (by simp [hd])

theorem readCell_insertCell_other (m : Memory) {i j : Nat} (v : Byte) (h : j ≠ i) :
    readCell (insertCell i v m) j = readCell m j := by
  induction m with
  | nil => simp [insertCell, readCell, Ne.symm h]
  | cons c rest ih =>
    by_cases hlt : i < c.1
    · simp [insertCell, hlt, readCell, Ne.symm h]
    · simp [insertCell, hlt, readCell, ih]

theorem readCell_filter_same (m : Memory) (i : Nat) : readCell (m.filter (fun c => c.1 != i)) i = unlistedByte := by
  induction m with
  | nil => rfl
  | cons c rest ih =>
    by_cases hc : c.1 = i
    · simp [hc, ih]
    · simp [hc, readCell, ih]

theorem readCell_filter_other (m : Memory) {i j : Nat} (h : j ≠ i) :
    readCell (m.filter (fun c => c.1 != i)) j = readCell m j := by
  induction m with
  | nil => rfl
  | cons c rest ih =>
    by_cases hc : c.1 = i
    · simp [hc, readCell, Ne.symm h, ih]
    · simp [hc, readCell, ih]

/-- A read after a write to the same cell gives the value written. -/
@[simp] theorem readCell_writeCell_same (m : Memory) (i : Nat) (v : Byte) : readCell (writeCell m i v) i = v := by
  by_cases hv : v = unlistedByte
  · rw [writeCell, if_pos hv, readCell_filter_same, hv]
  · simp only [writeCell, if_neg hv]
    exact readCell_insertCell_same _ _ _ (by simp)

/-- A write leaves every other cell alone. -/
theorem readCell_writeCell_other (m : Memory) {i j : Nat} (v : Byte) (h : j ≠ i) :
    readCell (writeCell m i v) j = readCell m j := by
  by_cases hv : v = unlistedByte
  · simp only [writeCell, if_pos hv, readCell_filter_other m h]
  · simp only [writeCell, if_neg hv, readCell_insertCell_other _ v h, readCell_filter_other m h]

theorem mem_insertCell {m : Memory} {i : Nat} {v : Byte} {c : Host.Cell} :
    c ∈ insertCell i v m ↔ c = (i, v) ∨ c ∈ m := by
  induction m with
  | nil => simp [insertCell]
  | cons d rest ih =>
    by_cases hlt : i < d.1
    · simp [insertCell, hlt]
    · simp only [insertCell, hlt, if_false, List.mem_cons, ih]
      tauto

theorem pairwise_insertCell {m : Memory} {i : Nat} {v : Byte} (hm : m.Pairwise (fun c d => c.1 < d.1))
    (hi : ∀ c ∈ m, c.1 ≠ i) : (insertCell i v m).Pairwise (fun c d => c.1 < d.1) := by
  induction m with
  | nil => simp [insertCell]
  | cons c rest ih =>
    obtain ⟨hc, hrest⟩ := List.pairwise_cons.1 hm
    have hne := hi c (by simp)
    by_cases hlt : i < c.1
    · simp only [insertCell, hlt, if_true]
      refine List.pairwise_cons.2 ⟨fun d hd => ?_, hm⟩
      rcases List.mem_cons.1 hd with rfl | hd
      · exact hlt
      · exact lt_trans hlt (hc d hd)
    · simp only [insertCell, hlt, if_false]
      refine List.pairwise_cons.2 ⟨fun d hd => ?_, ih hrest fun d hd => hi d (by simp [hd])⟩
      rcases mem_insertCell.1 hd with rfl | hd
      · show c.1 < i
        omega
      · exact hc d hd

/-- Every write keeps the canonical form. -/
theorem wf_writeCell {m : Memory} (i : Nat) (v : Byte) (hm : m.wf) : (writeCell m i v).wf := by
  have hf : (m.filter (fun c => c.1 != i)).Pairwise (fun c d => c.1 < d.1) := hm.1.filter _
  by_cases hv : v = unlistedByte
  · simp only [writeCell, if_pos hv]
    exact ⟨hf, fun c hc => hm.2 c (List.mem_filter.1 hc).1⟩
  · simp only [writeCell, if_neg hv]
    refine ⟨pairwise_insertCell hf (by simp), fun c hc => ?_⟩
    rcases mem_insertCell.1 hc with rfl | hc
    · exact hv
    · exact hm.2 c (List.mem_filter.1 hc).1

/-- A write inside the storage space keeps every listed cell inside it. -/
theorem storageOk_writeCell {n : Capacity} {m : Memory} {i : Nat} (v : Byte) (hi : i < n.val) (hm : StorageOk n m) :
    StorageOk n (writeCell m i v) := by
  refine ⟨wf_writeCell i v hm.1, fun c hc => ?_⟩
  by_cases hv : v = unlistedByte
  · simp only [writeCell, if_pos hv] at hc
    exact hm.2 c (List.mem_filter.1 hc).1
  · simp only [writeCell, if_neg hv] at hc
    rcases mem_insertCell.1 hc with rfl | hc
    · exact hi
    · exact hm.2 c (List.mem_filter.1 hc).1

/-- Reset lists nothing, and nothing is the canonical form of cleared storage. -/
theorem wf_nil : Memory.wf [] := by simp [Memory.wf]

@[simp] theorem readCell_nil (i : Nat) : readCell [] i = 0x00#8 := rfl

/-- Canonical memories that read alike are equal data. -/
theorem wf_ext {m m' : Memory} (hm : m.wf) (hm' : m'.wf) (h : ∀ i, readCell m i = readCell m' i) : m = m' := by
  have key : ∀ (m : Memory), m.wf → ∀ c : Host.Cell, c ∈ m ↔ (readCell m c.1 = c.2 ∧ c.2 ≠ unlistedByte) := by
    intro m hm c
    induction m with
    | nil => simp [readCell, eq_comm]
    | cons d rest ih =>
      obtain ⟨hp, hz⟩ := hm
      obtain ⟨hd, hrest⟩ := List.pairwise_cons.1 hp
      have ih' := ih ⟨hrest, fun c hc => hz c (by simp [hc])⟩
      by_cases hdc : d.1 = c.1
      · have hnot : c ∉ rest := fun hc => absurd (hd c hc) (by omega)
        simp only [List.mem_cons, hnot, or_false, readCell, hdc, if_true]
        constructor
        · rintro rfl
          exact ⟨rfl, hz c (by simp)⟩
        · rintro ⟨h2, -⟩
          exact Prod.ext hdc.symm h2.symm
      · simp only [List.mem_cons, readCell, hdc, if_false]
        rw [← ih']
        constructor
        · rintro (rfl | hc)
          · exact absurd rfl hdc
          · exact hc
        · exact Or.inr
  have hmem : ∀ c, c ∈ m ↔ c ∈ m' := fun c => by rw [key m hm, key m' hm', h]
  have hperm : m.Perm m' := (List.perm_ext_iff_of_nodup
    (hm.1.imp fun {a b} hab (he : a = b) => absurd hab (by rw [he]; exact lt_irrefl _))
    (hm'.1.imp fun {a b} hab (he : a = b) => absurd hab (by rw [he]; exact lt_irrefl _))).2 hmem
  exact hperm.eq_of_pairwise (fun a b _ _ hab hba => absurd (lt_trans hab hba) (lt_irrefl _)) hm.1 hm'.1

end Sys2Proof.Machine
end

