-- ==== Sys2Proof/Laws/State.lean ====
section
/-! SUPPORT. One lemma per field per update of State, so that no later proof unfolds a record update. -/

namespace Sys2Proof.Machine

variable (s : State)

@[simp] theorem State.setDes_params (d : Deserializer) : (s.setDes d).params = s.params := rfl
@[simp] theorem State.setDes_des (d : Deserializer) : (s.setDes d).des = d := rfl
@[simp] theorem State.setDes_acc (d : Deserializer) : (s.setDes d).acc = s.acc := rfl
@[simp] theorem State.setDes_stimulus (d : Deserializer) : (s.setDes d).stimulus = s.stimulus := rfl
@[simp] theorem State.setDes_desOut (d : Deserializer) : (s.setDes d).desOut = s.desOut := rfl
@[simp] theorem State.setDes_accOut (d : Deserializer) : (s.setDes d).accOut = s.accOut := rfl

@[simp] theorem State.setAcc_params (a : Accumulator) : (s.setAcc a).params = s.params := rfl
@[simp] theorem State.setAcc_des (a : Accumulator) : (s.setAcc a).des = s.des := rfl
@[simp] theorem State.setAcc_acc (a : Accumulator) : (s.setAcc a).acc = a := rfl
@[simp] theorem State.setAcc_stimulus (a : Accumulator) : (s.setAcc a).stimulus = s.stimulus := rfl
@[simp] theorem State.setAcc_desOut (a : Accumulator) : (s.setAcc a).desOut = s.desOut := rfl
@[simp] theorem State.setAcc_accOut (a : Accumulator) : (s.setAcc a).accOut = s.accOut := rfl

@[simp] theorem State.driveSig_params (g : Signal) : (s.driveSig g).params = s.params := rfl
@[simp] theorem State.driveSig_des (g : Signal) : (s.driveSig g).des = s.des := rfl
@[simp] theorem State.driveSig_acc (g : Signal) : (s.driveSig g).acc = s.acc := rfl
@[simp] theorem State.driveSig_stimulus (g : Signal) : (s.driveSig g).stimulus = s.stimulus := rfl
@[simp] theorem State.driveSig_desOut (g : Signal) : (s.driveSig g).desOut = { s.desOut with sigValid := true, sig := signalCode g } := rfl
@[simp] theorem State.driveSig_accOut (g : Signal) : (s.driveSig g).accOut = s.accOut := rfl

@[simp] theorem State.driveNoSig_params : (s.driveNoSig).params = s.params := rfl
@[simp] theorem State.driveNoSig_des : (s.driveNoSig).des = s.des := rfl
@[simp] theorem State.driveNoSig_acc : (s.driveNoSig).acc = s.acc := rfl
@[simp] theorem State.driveNoSig_stimulus : (s.driveNoSig).stimulus = s.stimulus := rfl
@[simp] theorem State.driveNoSig_desOut : (s.driveNoSig).desOut = { s.desOut with sigValid := false, sig := 0b00#2 } := rfl
@[simp] theorem State.driveNoSig_accOut : (s.driveNoSig).accOut = s.accOut := rfl

@[simp] theorem State.driveDesRd_params (r : Bool × Byte) : (s.driveDesRd r).params = s.params := rfl
@[simp] theorem State.driveDesRd_des (r : Bool × Byte) : (s.driveDesRd r).des = s.des := rfl
@[simp] theorem State.driveDesRd_acc (r : Bool × Byte) : (s.driveDesRd r).acc = s.acc := rfl
@[simp] theorem State.driveDesRd_stimulus (r : Bool × Byte) : (s.driveDesRd r).stimulus = s.stimulus := rfl
@[simp] theorem State.driveDesRd_desOut (r : Bool × Byte) : (s.driveDesRd r).desOut = { s.desOut with rdValid := r.1, rdData := r.2 } := rfl
@[simp] theorem State.driveDesRd_accOut (r : Bool × Byte) : (s.driveDesRd r).accOut = s.accOut := rfl

@[simp] theorem State.driveReport_params (o : Report) : (s.driveReport o).params = s.params := rfl
@[simp] theorem State.driveReport_des (o : Report) : (s.driveReport o).des = s.des := rfl
@[simp] theorem State.driveReport_acc (o : Report) : (s.driveReport o).acc = s.acc := rfl
@[simp] theorem State.driveReport_stimulus (o : Report) : (s.driveReport o).stimulus = s.stimulus := rfl
@[simp] theorem State.driveReport_desOut (o : Report) : (s.driveReport o).desOut = s.desOut := rfl
@[simp] theorem State.driveReport_accOut (o : Report) : (s.driveReport o).accOut = { s.accOut with outcomeValid := true, outcome := reportCode o } := rfl

@[simp] theorem State.driveNoReport_params : (s.driveNoReport).params = s.params := rfl
@[simp] theorem State.driveNoReport_des : (s.driveNoReport).des = s.des := rfl
@[simp] theorem State.driveNoReport_acc : (s.driveNoReport).acc = s.acc := rfl
@[simp] theorem State.driveNoReport_stimulus : (s.driveNoReport).stimulus = s.stimulus := rfl
@[simp] theorem State.driveNoReport_desOut : (s.driveNoReport).desOut = s.desOut := rfl
@[simp] theorem State.driveNoReport_accOut : (s.driveNoReport).accOut = { s.accOut with outcomeValid := false, outcome := 0b00#2 } := rfl

@[simp] theorem State.driveAccRd_params (r : Bool × Byte) : (s.driveAccRd r).params = s.params := rfl
@[simp] theorem State.driveAccRd_des (r : Bool × Byte) : (s.driveAccRd r).des = s.des := rfl
@[simp] theorem State.driveAccRd_acc (r : Bool × Byte) : (s.driveAccRd r).acc = s.acc := rfl
@[simp] theorem State.driveAccRd_stimulus (r : Bool × Byte) : (s.driveAccRd r).stimulus = s.stimulus := rfl
@[simp] theorem State.driveAccRd_desOut (r : Bool × Byte) : (s.driveAccRd r).desOut = s.desOut := rfl
@[simp] theorem State.driveAccRd_accOut (r : Bool × Byte) : (s.driveAccRd r).accOut = { s.accOut with rdValid := r.1, rdData := r.2 } := rfl

@[simp] theorem State.driveStatus_params : (s.driveStatus).params = s.params := rfl
@[simp] theorem State.driveStatus_des : (s.driveStatus).des = s.des := rfl
@[simp] theorem State.driveStatus_acc : (s.driveStatus).acc = s.acc := rfl
@[simp] theorem State.driveStatus_stimulus : (s.driveStatus).stimulus = s.stimulus := rfl
@[simp] theorem State.driveStatus_desOut : (s.driveStatus).desOut = { s.desOut with inReady := true, status := desStatus s.des } := rfl
@[simp] theorem State.driveStatus_accOut : (s.driveStatus).accOut = { s.accOut with status := accStatus s.acc } := rfl

/-! ### `accOf` and `withAcc` -/

@[simp] theorem withAcc_tag (d : Deserializer) (X : Field) (a : Accumulator) : (withAcc d X a).tag = d.tag := by
  cases X <;> rfl

@[simp] theorem accOf_withAcc_same (d : Deserializer) (X : Field) (a : Accumulator) : accOf (withAcc d X a) X = a := by
  cases X <;> rfl

theorem accOf_withAcc_other (d : Deserializer) {X Y : Field} (a : Accumulator) (h : Y ≠ X) :
    accOf (withAcc d X a) Y = accOf d Y := by
  cases X <;> cases Y <;> first | rfl | exact absurd rfl h

@[simp] theorem withAcc_accOf (d : Deserializer) (X : Field) : withAcc d X (accOf d X) = d := by
  cases X <;> rfl

@[simp] theorem accOf_setTag (d : Deserializer) (t : Tag) (X : Field) : accOf { d with tag := t } X = accOf d X := by
  cases X <;> rfl

/-- A deserializer is its tag and its three accumulators (10_state.md R25). -/
theorem deserializer_ext {d e : Deserializer} (ht : d.tag = e.tag) (ha : ∀ X, accOf d X = accOf e X) : d = e := by
  have hA := ha .a
  have hB := ha .b
  have hC := ha .c
  cases d
  cases e
  simp_all [accOf]

theorem activeField_awaitingTag (X : Field) : activeField (awaitingTag X) = some X := by
  cases X <;> rfl

theorem activeField_eq_some {t : Tag} {X : Field} : activeField t = some X ↔ t = awaitingTag X := by
  cases t <;> cases X <;> simp [activeField, awaitingTag]

end Sys2Proof.Machine
end

