-- ==== Sys2Proof/Laws/Ops.lean ====
section
/-! SUPPORT. For each shared operation, one lemma that says everything it can do; proofs cite it and do not unfold
the operation. -/

namespace Sys2Proof.Machine

@[simp] theorem exceedsCapacity_eq_true {b : Byte} {n : Capacity} : exceedsCapacity b n = true ↔ n.val < b.toNat := by
  simp [exceedsCapacity]

@[simp] theorem exceedsCapacity_eq_false {b : Byte} {n : Capacity} : exceedsCapacity b n = false ↔ b.toNat ≤ n.val := by
  simp [exceedsCapacity]

@[simp] theorem indexBelow_eq_true {i : Byte} {f : Nat} : indexBelow i f = true ↔ i.toNat < f := by
  simp [indexBelow]

@[simp] theorem indexBelow_eq_false {i : Byte} {f : Nat} : indexBelow i f = false ↔ f ≤ i.toNat := by
  simp [indexBelow]

/-- The completion predicate (10_state.md R21). -/
theorem isComplete_iff {a : Accumulator} : isComplete a = true ↔ a.lenSet = true ∧ a.filled = a.len.toNat := by
  simp [isComplete]

theorem isComplete_eq_false {a : Accumulator} :
    isComplete a = false ↔ (a.lenSet = true → a.filled ≠ a.len.toNat) := by
  cases h : a.lenSet <;> simp [isComplete, h]

/-- The code of an accepted length byte's report: FieldComplete exactly for 0 (40_field_accumulator.md R72). -/
theorem reportCode_lengthReport (b : Byte) :
    reportCode (lengthReport b) = if b.toNat = 0 then 0b01#2 else 0b00#2 := by
  unfold lengthReport
  by_cases h : b = 0#8
  · simp [h, reportCode]
  · have : b.toNat ≠ 0 := fun h' => h (BitVec.eq_of_toNat_eq (by simpa using h'))
    simp [h, this, reportCode]

/-- The code of a stored value byte's report: FieldComplete exactly for the last (R72). -/
theorem reportCode_valueReport (f : Nat) (l : Byte) :
    reportCode (valueReport f l) = if f + 1 = l.toNat then 0b01#2 else 0b00#2 := by
  unfold valueReport
  split <;> simp [reportCode]

/-- A length byte within the capacity is accepted (40_field_accumulator.md R72). -/
theorem feedAcc_length {n : Capacity} {b : Byte} {a : Accumulator} (h : a.lenSet = false) (hb : b.toNat ≤ n.val) :
    feedAcc n b a = .ok (acceptLength b a, lengthReport b) := by
  have : exceedsCapacity b n = false := exceedsCapacity_eq_false.2 hb
  simp [feedAcc, h, this]

/-- A length byte above the capacity is rejected, and nothing is written (R72). -/
theorem feedAcc_rejected {n : Capacity} {b : Byte} {a : Accumulator} (h : a.lenSet = false) (hb : n.val < b.toNat) :
    feedAcc n b a = .ok (a, .lengthInvalid) := by
  have : exceedsCapacity b n = true := exceedsCapacity_eq_true.2 hb
  simp [feedAcc, h, this]

/-- A complete accumulator takes no byte (R72, 60_exceptions.md R101). -/
theorem feedAcc_overfeed {n : Capacity} {b : Byte} {a : Accumulator} (h : a.lenSet = true) (hf : a.filled = a.len.toNat) :
    feedAcc n b a = .ok (a, .overfeed) := by
  simp [feedAcc, h, hf]

/-- A value byte is stored at `filled` (R72). -/
theorem feedAcc_value {n : Capacity} {b : Byte} {a : Accumulator} (h : a.lenSet = true) (hf : a.filled ≠ a.len.toNat)
    (hn : a.filled < n.val) :
    feedAcc n b a =
      .ok ({ a with storage := writeCell a.storage a.filled b, filled := a.filled + 1 }, valueReport a.filled a.len) := by
  simp [feedAcc, h, hf, storeValue, memWrite, hn]

/-- A value byte with no cell left for it is the model's only fault (log entry 8). -/
theorem feedAcc_noSuchCell {n : Capacity} {b : Byte} {a : Accumulator} (h : a.lenSet = true) (hf : a.filled ≠ a.len.toNat)
    (hn : n.val ≤ a.filled) : feedAcc n b a = .error (.noSuchCell a.filled) := by
  simp [feedAcc, h, hf, storeValue, memWrite, Nat.not_lt.2 hn]

/-- Everything a feed that completes can do: a length rejected, a length accepted, an overfeed, a value stored. -/
theorem feedAcc_cases {n : Capacity} {b : Byte} {a a' : Accumulator} {o : Report} (h : feedAcc n b a = .ok (a', o)) :
    (a.lenSet = false ∧ n.val < b.toNat ∧ a' = a ∧ o = .lengthInvalid) ∨
    (a.lenSet = false ∧ b.toNat ≤ n.val ∧ a' = acceptLength b a ∧ o = lengthReport b) ∨
    (a.lenSet = true ∧ a.filled = a.len.toNat ∧ a' = a ∧ o = .overfeed) ∨
    (a.lenSet = true ∧ a.filled ≠ a.len.toNat ∧ a.filled < n.val ∧
      a' = { a with storage := writeCell a.storage a.filled b, filled := a.filled + 1 } ∧
      o = valueReport a.filled a.len) := by
  rcases Bool.eq_false_or_eq_true a.lenSet with hl | hl
  · by_cases hf : a.filled = a.len.toNat
    · rw [feedAcc_overfeed hl hf] at h
      simp only [Except.ok.injEq, Prod.mk.injEq] at h
      exact .inr (.inr (.inl ⟨hl, hf, h.1.symm, h.2.symm⟩))
    · rcases Nat.lt_or_ge a.filled n.val with hn | hn
      · rw [feedAcc_value hl hf hn] at h
        simp only [Except.ok.injEq, Prod.mk.injEq] at h
        exact .inr (.inr (.inr ⟨hl, hf, hn, h.1.symm, h.2.symm⟩))
      · rw [feedAcc_noSuchCell hl hf hn] at h
        cases h
  · rcases Nat.lt_or_ge n.val b.toNat with hb | hb
    · rw [feedAcc_rejected hl hb] at h
      simp only [Except.ok.injEq, Prod.mk.injEq] at h
      exact .inl ⟨hl, hb, h.1.symm, h.2.symm⟩
    · rw [feedAcc_length hl hb] at h
      simp only [Except.ok.injEq, Prod.mk.injEq] at h
      exact .inr (.inl ⟨hl, hb, h.1.symm, h.2.symm⟩)

/-- A feed stops only for want of a cell, and names that cell. -/
theorem feedAcc_error {n : Capacity} {b : Byte} {a : Accumulator} {f : Fault} (h : feedAcc n b a = .error f) :
    a.lenSet = true ∧ a.filled ≠ a.len.toNat ∧ n.val ≤ a.filled ∧ f = .noSuchCell a.filled := by
  cases hl : a.lenSet with
  | false =>
    rcases Nat.lt_or_ge n.val b.toNat with hb | hb
    · rw [feedAcc_rejected hl hb] at h
      cases h
    · rw [feedAcc_length hl hb] at h
      cases h
  | true =>
    by_cases hf : a.filled = a.len.toNat
    · rw [feedAcc_overfeed hl hf] at h
      cases h
    · rcases Nat.lt_or_ge a.filled n.val with hn | hn
      · rw [feedAcc_value hl hf hn] at h
        cases h
      · rw [feedAcc_noSuchCell hl hf hn] at h
        cases h
        exact ⟨rfl, hf, hn, rfl⟩

/-- In a state that keeps the accumulator's invariants every byte can be fed (20_memory.md R44). -/
theorem feedAcc_completes {n : Capacity} {b : Byte} {a : Accumulator} (ha : AccInv n a) :
    ∃ a' o, feedAcc n b a = .ok (a', o) := by
  cases h : feedAcc n b a with
  | ok r => exact ⟨r.1, r.2, rfl⟩
  | error f =>
    obtain ⟨hl, hf, hn, -⟩ := feedAcc_error h
    have := ha.2.2 hl
    omega

/-- A read inside the valid range and the storage space shows the cell; any other is invalid (R76). -/
theorem readAcc_valid {n : Capacity} {i : Byte} {a : Accumulator} (h : i.toNat < a.filled) (hn : i.toNat < n.val) :
    readAcc n i a = (true, readCell a.storage i.toNat) := by
  have : indexBelow i a.filled = true := indexBelow_eq_true.2 h
  simp [readAcc, this, memRead, hn]

theorem readAcc_invalid {n : Capacity} {i : Byte} {a : Accumulator} (h : a.filled ≤ i.toNat) :
    readAcc n i a = (false, 0x00#8) := by
  have : indexBelow i a.filled = false := indexBelow_eq_false.2 h
  simp [readAcc, this]

/-- Everything an `ADV` that completes can do: nothing in a terminal state, else one feed and the reaction to
its report (41_frame_deserializer.md R79, R82). -/
theorem advanceDes_cases {p : Params} {b : Byte} {d d' : Deserializer} {g : Signal}
    (h : advanceDes p b d = .ok (d', g)) :
    (activeField d.tag = none ∧ d' = d ∧ g = .alreadyDone) ∨
    ∃ X a o, activeField d.tag = some X ∧ feedAcc (capacityOf p X) b (accOf d X) = .ok (a, o) ∧
      reactTo X o (withAcc d X a) = (d', g) := by
  unfold advanceDes at h
  cases hX : activeField d.tag with
  | none =>
    simp only [hX, Except.ok.injEq, Prod.mk.injEq] at h
    exact .inl ⟨rfl, h.1.symm, h.2.symm⟩
  | some X =>
    simp only [hX] at h
    cases hf : feedAcc (capacityOf p X) b (accOf d X) with
    | error f => simp [hf] at h
    | ok r =>
      simp only [hf, Except.ok.injEq] at h
      exact .inr ⟨X, r.1, r.2, rfl, hf, h⟩

theorem advanceDes_inactive {p : Params} {b : Byte} {d : Deserializer} (h : activeField d.tag = none) :
    advanceDes p b d = .ok (d, .alreadyDone) := by
  simp [advanceDes, h]

theorem advanceDes_active {p : Params} {b : Byte} {d : Deserializer} {X : Field} {a : Accumulator} {o : Report}
    (h : activeField d.tag = some X) (hf : feedAcc (capacityOf p X) b (accOf d X) = .ok (a, o)) :
    advanceDes p b d = .ok (reactTo X o (withAcc d X a)) := by
  simp [advanceDes, h, hf]

/-- The reaction to a report writes the tag alone (R80). -/
@[simp] theorem accOf_reactTo (X Y : Field) (o : Report) (d : Deserializer) :
    accOf (reactTo X o d).1 Y = accOf d Y := by
  cases o <;> simp [reactTo, enterError]

/-- The state after `RST` is the constructed state, whatever the state before (R84, 10_state.md R35). -/
@[simp] theorem resetDes_eq_fresh (d : Deserializer) : resetDes d = .fresh := rfl

/-! ### What each operation answers -/

theorem exec_adv_next {b : Byte} {s t : State} (h : exec (.adv b) s = .next t) :
    ∃ d g, advanceDes s.params b s.des = .ok (d, g) ∧ t = (s.setDes d).driveSig g := by
  simp only [exec, execAdv] at h
  cases ha : advanceDes s.params b s.des with
  | error f => simp [ha] at h
  | ok r =>
    simp only [ha, Host.Outcome.next.injEq] at h
    exact ⟨r.1, r.2, rfl, h.symm⟩

theorem exec_accFeed_next {b : Byte} {s t : State} (h : exec (.accFeed b) s = .next t) :
    ∃ a o, feedAcc s.params.nAcc b s.acc = .ok (a, o) ∧ t = (s.setAcc a).driveReport o := by
  simp only [exec, execAccFeed] at h
  cases ha : feedAcc s.params.nAcc b s.acc with
  | error f => simp [ha] at h
  | ok r =>
    simp only [ha, Host.Outcome.next.injEq] at h
    exact ⟨r.1, r.2, rfl, h.symm⟩

theorem exec_adv_of_ok {b : Byte} {s : State} {r : Deserializer × Signal}
    (h : advanceDes s.params b s.des = .ok r) : exec (.adv b) s = .next ((s.setDes r.1).driveSig r.2) := by
  simp [exec, execAdv, h]

theorem exec_accFeed_of_ok {b : Byte} {s : State} {r : Accumulator × Report}
    (h : feedAcc s.params.nAcc b s.acc = .ok r) : exec (.accFeed b) s = .next ((s.setAcc r.1).driveReport r.2) := by
  simp [exec, execAccFeed, h]

/-- An `ADV` that completes feeds at most one accumulator: each one is as before, or it is the active one and was
fed the byte (41_frame_deserializer.md R81). -/
theorem adv_feeds_active {b : Byte} {s t : State} (ht : exec (.adv b) s = .next t) (X : Field) :
    accOf t.des X = accOf s.des X ∨
    (s.des.tag = awaitingTag X ∧
      ∃ o, feedAcc (capacityOf s.params X) b (accOf s.des X) = .ok (accOf t.des X, o)) := by
  obtain ⟨d, g, hd, rfl⟩ := exec_adv_next ht
  simp only [State.driveSig_des, State.setDes_des]
  rcases advanceDes_cases hd with ⟨-, rfl, rfl⟩ | ⟨Y, a, o, hY, hf, hr⟩
  · exact .inl rfl
  · have hd' : accOf d X = accOf (withAcc s.des Y a) X := by
      have := accOf_reactTo Y X o (withAcc s.des Y a)
      rwa [hr] at this
    rw [hd']
    by_cases hXY : X = Y
    · subst hXY
      rw [accOf_withAcc_same]
      exact .inr ⟨activeField_eq_some.1 hY, o, hf⟩
    · rw [accOf_withAcc_other _ _ hXY]
      exact .inl rfl

@[simp] theorem exec_rst (s : State) : exec .rst s = .next ((s.setDes .fresh).driveNoSig) := rfl

@[simp] theorem exec_idle (s : State) : exec .idle s = .next s.driveNoSig := rfl

@[simp] theorem exec_rd (f : FieldSel) (i : Byte) (s : State) :
    exec (.rd f i) s = .next (s.driveDesRd (readDes s.params f i s.des)) := rfl

@[simp] theorem exec_accClear (s : State) : exec .accClear s = .next ((s.setAcc .empty).driveNoReport) := rfl

@[simp] theorem exec_accIdle (s : State) : exec .accIdle s = .next s.driveNoReport := rfl

@[simp] theorem exec_accRd (i : Byte) (s : State) :
    exec (.accRd i) s = .next (s.driveAccRd (readAcc s.params.nAcc i s.acc)) := rfl

end Sys2Proof.Machine
end

