-- ==== Sys2Proof/Laws/Step.lean ====
section
/-! SUPPORT. One cycle in closed form: what the step does to each block, from that block's own words and the
state before the edge. -/

namespace Sys2Proof.Machine

/-- What a DES_CTRL word does to the deserializer: its registers after the edge, `sig_valid` and `sig`. -/
def desCycle (p : Params) (w : Word10) (d : Deserializer) : Except Fault (Deserializer × Bool × BitVec 2) :=
  if ctrlRst w then .ok (.fresh, false, 0b00#2)
  else if ctrlValid w then
    match advanceDes p (lowByte w) d with
    | .error f => .error f
    | .ok (d', g) => .ok (d', true, signalCode g)
  else .ok (d, false, 0b00#2)

/-- What an ACC_CTRL word does to an accumulator: its registers after the edge, `outcome_valid` and `outcome`. -/
def accCycle (n : Capacity) (w : Word10) (a : Accumulator) : Except Fault (Accumulator × Bool × BitVec 2) :=
  if ctrlRst w then .ok (.empty, false, 0b00#2)
  else if ctrlValid w then
    match feedAcc n (lowByte w) a with
    | .error f => .error f
    | .ok (a', o) => .ok (a', true, reportCode o)
  else .ok (a, false, 0b00#2)

/-- The state after a cycle, from what its words do to the two blocks. -/
def afterCycle (s : State) (l : Line) (rest : List CycleInput) (x : Deserializer × Bool × BitVec 2)
    (y : Accumulator × Bool × BitVec 2) : State :=
  { params := s.params
    des := x.1
    acc := y.1
    stimulus := rest
    desOut :=
      { inReady := true
        sigValid := x.2.1
        sig := x.2.2
        rdValid := (readDes s.params (.ofCode (rdFieldBits l.desRd)) (lowByte l.desRd) s.des).1
        rdData := (readDes s.params (.ofCode (rdFieldBits l.desRd)) (lowByte l.desRd) s.des).2
        status := desStatus s.des }
    accOut :=
      { outcomeValid := y.2.1
        outcome := y.2.2
        rdValid := (readAcc s.params.nAcc l.accRd s.acc).1
        rdData := (readAcc s.params.nAcc l.accRd s.acc).2
        status := accStatus s.acc } }

theorem exec_decodeDesCtrl (w : Word10) (s : State) :
    exec (decodeDesCtrl w) s =
      match desCycle s.params w s.des with
      | .error f => .fault f
      | .ok x => .next { s with des := x.1, desOut := { s.desOut with sigValid := x.2.1, sig := x.2.2 } } := by
  unfold decodeDesCtrl desCycle
  split
  · rfl
  · split
    · simp only [exec, execAdv]
      cases advanceDes s.params (lowByte w) s.des <;> rfl
    · rfl

theorem exec_decodeAccCtrl (w : Word10) (s : State) :
    exec (decodeAccCtrl w) s =
      match accCycle s.params.nAcc w s.acc with
      | .error f => .fault f
      | .ok y => .next { s with acc := y.1, accOut := { s.accOut with outcomeValid := y.2.1, outcome := y.2.2 } } := by
  unfold decodeAccCtrl accCycle
  split
  · rfl
  · split
    · simp only [exec, execAccFeed]
      cases feedAcc s.params.nAcc (lowByte w) s.acc <;> rfl
    · rfl

theorem exec_decodeDesCtrl_next {w : Word10} {s : State} {x : Deserializer × Bool × BitVec 2}
    (h : desCycle s.params w s.des = .ok x) :
    exec (decodeDesCtrl w) s = .next { s with des := x.1, desOut := { s.desOut with sigValid := x.2.1, sig := x.2.2 } } := by
  rw [exec_decodeDesCtrl, h]

theorem exec_decodeAccCtrl_next {w : Word10} {s : State} {y : Accumulator × Bool × BitVec 2}
    (h : accCycle s.params.nAcc w s.acc = .ok y) :
    exec (decodeAccCtrl w) s =
      .next { s with acc := y.1, accOut := { s.accOut with outcomeValid := y.2.1, outcome := y.2.2 } } := by
  rw [exec_decodeAccCtrl, h]

/-- The step in closed form, when the next input is driven. -/
theorem step_driven {s : State} {l : Line} {rest : List CycleInput} (h : s.stimulus = .driven l :: rest) :
    step s =
      match desCycle s.params l.desCtrl s.des with
      | .error f => .fault f
      | .ok x =>
        match accCycle s.params.nAcc l.accCtrl s.acc with
        | .error f => .fault f
        | .ok y => .next (afterCycle s l rest x y) := by
  simp only [step, runCycle, fetchLine, h, cycleOps, runOps, decodeDesRd, decodeAccRd, exec_rd, exec_accRd,
    exec_decodeDesCtrl]
  cases hd : desCycle s.params l.desCtrl s.des with
  | error f => simp [State.driveStatus, State.driveDesRd, State.driveAccRd, hd]
  | ok x =>
    simp only [exec_decodeAccCtrl, State.driveStatus, State.driveDesRd, State.driveAccRd, hd]
    cases accCycle s.params.nAcc l.accCtrl s.acc <;> rfl

theorem step_nil {s : State} (h : s.stimulus = []) : step s = .refused .endOfStimulus := by
  simp [step, runCycle, fetchLine, h]

theorem step_undefined {s : State} {rest : List CycleInput} (h : s.stimulus = .undefined :: rest) :
    step s = .refused .undefinedInput := by
  simp [step, runCycle, fetchLine, h]

/-- Everything a step that completes can do: it took a driven line, and each block did what its own word says. -/
theorem step_cases {s t : State} (h : step s = .next t) :
    ∃ l rest x y, s.stimulus = .driven l :: rest ∧ desCycle s.params l.desCtrl s.des = .ok x ∧
      accCycle s.params.nAcc l.accCtrl s.acc = .ok y ∧ t = afterCycle s l rest x y := by
  match hs : s.stimulus with
  | [] => simp [step_nil hs] at h
  | .undefined :: rest => simp [step_undefined hs] at h
  | .driven l :: rest =>
    rw [step_driven hs] at h
    cases hd : desCycle s.params l.desCtrl s.des with
    | error f => simp [hd] at h
    | ok x =>
      cases ha : accCycle s.params.nAcc l.accCtrl s.acc with
      | error f => simp [hd, ha] at h
      | ok y =>
        simp only [hd, ha, Host.Outcome.next.injEq] at h
        exact ⟨l, rest, x, y, rfl, hd, ha, h.symm⟩

/-- Everything a DES_CTRL word that completes can do to the deserializer. -/
theorem desCycle_cases {p : Params} {w : Word10} {d : Deserializer} {x : Deserializer × Bool × BitVec 2}
    (h : desCycle p w d = .ok x) :
    (ctrlRst w = true ∧ x = (.fresh, false, 0b00#2)) ∨
    (ctrlRst w = false ∧ ctrlValid w = true ∧
      ∃ d' g, advanceDes p (lowByte w) d = .ok (d', g) ∧ x = (d', true, signalCode g)) ∨
    (ctrlRst w = false ∧ ctrlValid w = false ∧ x = (d, false, 0b00#2)) := by
  unfold desCycle at h
  cases hr : ctrlRst w with
  | true =>
    simp only [hr, if_true, Except.ok.injEq] at h
    exact .inl ⟨rfl, h.symm⟩
  | false =>
    cases hv : ctrlValid w with
    | false =>
      simp only [hr, hv, Bool.false_eq_true, if_false, Except.ok.injEq] at h
      exact .inr (.inr ⟨rfl, rfl, h.symm⟩)
    | true =>
      cases ha : advanceDes p (lowByte w) d with
      | error f => simp [hr, hv, ha] at h
      | ok r =>
        simp only [hr, hv, ha, Bool.false_eq_true, if_false, if_true, Except.ok.injEq] at h
        exact .inr (.inl ⟨rfl, rfl, r.1, r.2, rfl, h.symm⟩)

/-- Everything an ACC_CTRL word that completes can do to an accumulator. -/
theorem accCycle_cases {n : Capacity} {w : Word10} {a : Accumulator} {y : Accumulator × Bool × BitVec 2}
    (h : accCycle n w a = .ok y) :
    (ctrlRst w = true ∧ y = (.empty, false, 0b00#2)) ∨
    (ctrlRst w = false ∧ ctrlValid w = true ∧
      ∃ a' o, feedAcc n (lowByte w) a = .ok (a', o) ∧ y = (a', true, reportCode o)) ∨
    (ctrlRst w = false ∧ ctrlValid w = false ∧ y = (a, false, 0b00#2)) := by
  unfold accCycle at h
  cases hr : ctrlRst w with
  | true =>
    simp only [hr, if_true, Except.ok.injEq] at h
    exact .inl ⟨rfl, h.symm⟩
  | false =>
    cases hv : ctrlValid w with
    | false =>
      simp only [hr, hv, Bool.false_eq_true, if_false, Except.ok.injEq] at h
      exact .inr (.inr ⟨rfl, rfl, h.symm⟩)
    | true =>
      cases ha : feedAcc n (lowByte w) a with
      | error f => simp [hr, hv, ha] at h
      | ok r =>
        simp only [hr, hv, ha, Bool.false_eq_true, if_false, if_true, Except.ok.injEq] at h
        exact .inr (.inl ⟨rfl, rfl, r.1, r.2, rfl, h.symm⟩)

end Sys2Proof.Machine
end

