-- ==== Sys2Proof/Laws/Invariant.lean ====
section
/-! SUPPORT. The invariants of Safety.lean in the forms that proofs use: per accumulator, per tag, and what one feed
does to them. -/

namespace Sys2Proof.Machine

theorem accInv_empty (n : Capacity) : AccInv n .empty :=
  ⟨⟨wf_nil, by simp [Accumulator.empty]⟩, fun _ => ⟨rfl, rfl⟩, by simp [Accumulator.empty]⟩

/-- The invariant of one of the deserializer's accumulators. -/
theorem accInv_accOf {s : State} (hi : s.Inv) (X : Field) : AccInv (capacityOf s.params X) (accOf s.des X) := by
  cases X
  · exact hi.1.1
  · exact hi.1.2.1
  · exact hi.1.2.2

/-- The row of the table of 10_state.md R28 (R29 for Error) that a tag selects. -/
def tagRow (t : Tag) (a b c : Accumulator) : Prop :=
  match t with
  | .awaitingA => isComplete a = false ∧ AccEmpty b ∧ AccEmpty c
  | .awaitingB => isComplete a = true ∧ isComplete b = false ∧ AccEmpty c
  | .awaitingC => isComplete a = true ∧ isComplete b = true ∧ isComplete c = false
  | .complete => isComplete a = true ∧ isComplete b = true ∧ isComplete c = true
  | .error =>
    (AccEmpty a ∧ AccEmpty b ∧ AccEmpty c) ∨ (isComplete a = true ∧ AccEmpty b ∧ AccEmpty c) ∨
    (isComplete a = true ∧ isComplete b = true ∧ AccEmpty c)
  | .unused5 => False
  | .unused6 => False
  | .unused7 => False

/-- `TagInv` is the row of the current tag. -/
theorem tagInv_iff (d : Deserializer) : TagInv d ↔ tagRow d.tag d.accA d.accB d.accC := by
  obtain ⟨t, a, b, c⟩ := d
  cases t <;> simp [TagInv, LegalTag, tagRow]

theorem isComplete_of_empty {a : Accumulator} (h : AccEmpty a) : isComplete a = false := by
  simp [isComplete, h.1]

/-- The accumulator that an `ADV` feeds is not complete (41_frame_deserializer.md R88). -/
theorem active_not_complete {s : State} {X : Field} (hi : s.Inv) (hX : s.des.tag = awaitingTag X) :
    isComplete (accOf s.des X) = false := by
  have h := (tagInv_iff _).1 hi.2.1
  rw [hX] at h
  cases X
  · exact h.1
  · exact h.2.1
  · exact h.2.2

/-- What a feed does to an accumulator that keeps its invariant and is not complete: the invariant is kept, the
report tells whether the field is complete, and a rejected length leaves it unset and untouched. -/
theorem feedAcc_inv {n : Capacity} {b : Byte} {a a' : Accumulator} {o : Report} (ha : AccInv n a)
    (hc : isComplete a = false) (h : feedAcc n b a = .ok (a', o)) :
    AccInv n a' ∧ o ≠ .overfeed ∧ (o = .fieldComplete → isComplete a' = true) ∧
    (o = .needsMore → isComplete a' = false) ∧ (o = .lengthInvalid → a' = a ∧ AccEmpty a) := by
  obtain ⟨hs, h0, h1⟩ := ha
  rcases feedAcc_cases h with ⟨hl, -, rfl, rfl⟩ | ⟨hl, hb, rfl, rfl⟩ | ⟨hl, hf, rfl, rfl⟩ | ⟨hl, hf, hn, rfl, rfl⟩
  · exact ⟨⟨hs, h0, h1⟩, by simp, by simp, by simp, fun _ => ⟨rfl, hl, (h0 hl).1⟩⟩
  · have hz := (h0 hl).1
    have hinv : AccInv n (acceptLength b a) :=
      ⟨hs, by simp [acceptLength], fun _ => ⟨by simp [acceptLength, hz], hb⟩⟩
    refine ⟨hinv, ?_⟩
    unfold lengthReport
    by_cases hb0 : b = 0#8
    · subst hb0
      simp [isComplete, acceptLength, hz]
    · have hne : ¬ 0 = b.toNat := fun h' => hb0 (BitVec.eq_of_toNat_eq (by simpa using h'.symm))
      simp [hb0, isComplete, acceptLength, hz, hne]
  · exact absurd hf (isComplete_eq_false.1 hc hl)
  · have hle := h1 hl
    have hinv : AccInv n { a with storage := writeCell a.storage a.filled b, filled := a.filled + 1 } := by
      refine ⟨storageOk_writeCell b hn hs, by simp [hl], fun _ => ⟨?_, hle.2⟩⟩
      show a.filled + 1 ≤ a.len.toNat
      omega
    refine ⟨hinv, ?_⟩
    unfold valueReport
    by_cases hq : a.filled + 1 = a.len.toNat <;> simp [hq, isComplete, hl]

end Sys2Proof.Machine
end

