-- ==== Sys2Proof/Laws/PerInstr.lean ====
section
/-! SUPPORT. For every operation: its canonical word is a word of its port and belongs to its own row of
spec/opcode_table.json. -/

namespace Sys2Proof.Laws.RowOfEncoding

/-- The canonical word fits the port, and `word AND mask` is the row's pattern. -/
def Statement (i : Instr) : Prop :=
  i.row.format = i.format ∧ encode i < 2 ^ i.format.width ∧ i.row.covers (encode i) = true

theorem adv (b : Byte) : Statement (.adv b) := by
  refine ⟨rfl, BitVec.isLt _, ?_⟩
  revert b
  decide

theorem rst : Statement .rst := ⟨rfl, BitVec.isLt _, by decide⟩

theorem idle : Statement .idle := ⟨rfl, BitVec.isLt _, by decide⟩

theorem rd (f : FieldSel) (i : Byte) : Statement (.rd f i) := by
  refine ⟨rfl, BitVec.isLt _, ?_⟩
  simp [Instr.row, Row.covers]

theorem accFeed (b : Byte) : Statement (.accFeed b) := by
  refine ⟨rfl, BitVec.isLt _, ?_⟩
  revert b
  decide

theorem accClear : Statement .accClear := ⟨rfl, BitVec.isLt _, by decide⟩

theorem accIdle : Statement .accIdle := ⟨rfl, BitVec.isLt _, by decide⟩

theorem accRd (i : Byte) : Statement (.accRd i) := by
  refine ⟨rfl, BitVec.isLt _, ?_⟩
  simp [Instr.row, Row.covers]

end Sys2Proof.Laws.RowOfEncoding
end

