-- ==== Sys2Proof/Tests/Slice0.lean ====
section
/-! SUPPORT. Small tests, with the expected results of spec/95_test_vectors.md, and for every statement with hypotheses a
concrete state and operands that meet them. -/

namespace Sys2Proof.Tests

open Sys2Proof Sys2Proof.Machine

/-! ### Small states -/

/-- An accumulator `(1, len, filled)` with the value bytes `values`, as 95_test_vectors.md writes it. -/
def accWith (len : Byte) (values : List Byte) : Accumulator :=
  { lenSet := true, len := len, filled := values.length
    storage := (values.zipIdx.filter (fun p => p.1 != 0#8)).map (fun p => (p.2, p.1)) }

def desWith (tag : Tag) (a b c : Accumulator) : State :=
  { State.reset with des := { tag := tag, accA := a, accB := b, accC := c } }

/-- A stand-alone accumulator of capacity `n`. -/
def aloneWith (n : Capacity) (a : Accumulator) : State :=
  { State.reset with acc := a, params := { Config.params with nAcc := n } }

def presenting (s : State) (lines : List Line) : State := { s with stimulus := lines.map .driven }

/-- The end of W1: Complete, A = [1,2,3], B = [1,2], C = [1,2,3,4]. -/
def endOfW1 : State :=
  desWith .complete (accWith 3#8 [1#8, 2#8, 3#8]) (accWith 2#8 [1#8, 2#8]) (accWith 4#8 [1#8, 2#8, 3#8, 4#8])

/-- W1 after its first 11 bytes. -/
def lastByteOfW1 : State :=
  desWith .awaitingC (accWith 3#8 [1#8, 2#8, 3#8]) (accWith 2#8 [1#8, 2#8]) (accWith 4#8 [1#8, 2#8, 3#8])

/-- The operation completes, and the state after it passes the check. -/
def afterExec (i : Instr) (s : State) (p : State → Bool) : Bool :=
  match exec i s with
  | .next t => p t
  | _ => false

/-- The step completes, and the state after it passes the check. -/
def afterStep (s : State) (p : State → Bool) : Bool :=
  match step s with
  | .next t => p t
  | _ => false

/-! ### Well-formedness -/

theorem test_wellFormed_refuses_advs_empty : (Pseudo.advs []).wellFormed = false := by decide
set_option maxRecDepth 4000 in
theorem test_wellFormed_refuses_field_256 : (Pseudo.field (List.replicate 256 0#8)).wellFormed = false := by decide
set_option maxRecDepth 4000 in
theorem test_wellFormed_refuses_frame_a_256 : (Pseudo.frame (List.replicate 256 0#8) [] []).wellFormed = false := by decide
set_option maxRecDepth 4000 in
theorem test_wellFormed_refuses_frame_b_256 : (Pseudo.frame [] (List.replicate 256 0#8) []).wellFormed = false := by decide
set_option maxRecDepth 4000 in
theorem test_wellFormed_refuses_frame_c_256 : (Pseudo.frame [] [] (List.replicate 256 0#8)).wellFormed = false := by decide
theorem test_wellFormed_refuses_rdn_257 : (Pseudo.rdn .a 257).wellFormed = false := by decide

/-! ### Decoding: words written out from 30_encoding.md R57 to R59, R63 to R65 -/

/-- 0x120 of W2. -/
theorem test_decode_adv : decode .desCtrl 0b0100100000 = .ok (.adv 0x20#8) := by decide
/-- 0x305 of D-RSTBYTE: `rst` wins over `in_valid`. -/
theorem test_decode_rst : decode .desCtrl 0b1100000101 = .ok .rst := by decide
/-- 0x0AB of D-IDLE: the byte is ignored. -/
theorem test_decode_idle : decode .desCtrl 0b0010101011 = .ok .idle := by decide
/-- 0x1FF of D-RD-IDX255: field B, index 255. -/
theorem test_decode_rd : decode .desRd 0b0111111111 = .ok (.rd .b 255#8) := by decide
/-- 0x1AA of A-VAL1. -/
theorem test_decode_accFeed : decode .accCtrl 0b0110101010 = .ok (.accFeed 0xAA#8) := by decide
/-- 0x3AB of A-CLRFEED. -/
theorem test_decode_accClear : decode .accCtrl 0b1110101011 = .ok .accClear := by decide
/-- 0x0FF of A-IDLE. -/
theorem test_decode_accIdle : decode .accCtrl 0b0011111111 = .ok .accIdle := by decide
/-- Index 2 of P5 line 9. -/
theorem test_decode_accRd : decode .accRd 0b00000010 = .ok (.accRd 2#8) := by decide
/-- An 11th bit has no wire (log entry 11). -/
theorem test_decode_refuses_wide : decode .desCtrl 0b10100000000 = .error (.wordTooWide .desCtrl) := by decide
/-- A 9th bit of ACC_RD has no wire; bits 10 and up of ACC_CTRL have none (log entry 11). -/
theorem test_decode_refuses_wide_acc :
    decode .accRd 0x100 = .error (.wordTooWide .accRd) ∧ decode .accCtrl 0x400 = .error (.wordTooWide .accCtrl) := by decide
/-- The canonical words of R70. -/
theorem test_encode_canonical : encode .rst = 0x200 ∧ encode .idle = 0x000 ∧ encode (.adv 0x63#8) = 0x163 := by decide
/-- `P4`: DES_RD 0x23F is RD C,63. -/
theorem test_encode_rd : encode (.rd .c 63#8) = 0x23F := by decide
theorem test_decodeTableWord : decodeTableWord 16 0x103 = some (.adv 3#8) ∧ decodeTableWord 8 0x02 = some (.accRd 2#8) := by
  decide

/-! ### One step or one operation each (95_test_vectors.md) -/

/-- D-A32 (W2): 32 > 31. -/
theorem test_adv_oversized_length :
    afterExec (.adv 0x20#8) State.reset (fun t =>
      decide (t.des = { State.reset.des with tag := .error }) && t.desOut.sig == 0b10#2) = true := by decide
/-- W1, byte 12. -/
theorem test_adv_last_byte :
    afterExec (.adv 4#8) lastByteOfW1 (fun t => decide (t.des = endOfW1.des) && t.desOut.sig == 0b01#2) = true := by decide
/-- D-RSTBYTE: the byte of the cycle is lost. -/
theorem test_rst_discards_the_byte :
    afterStep (presenting (desWith .awaitingA (accWith 3#8 [1#8]) .empty .empty) [{ Line.quiet with desCtrl := 0x305#10 }])
      (fun t => decide (t.des = State.reset.des) && !t.desOut.sigValid) = true := by decide
/-- D-IDLE: the byte is not looked at. -/
theorem test_idle_ignores_the_byte :
    afterStep
      (presenting (desWith .awaitingB (accWith 3#8 [1#8, 2#8, 3#8]) (accWith 2#8 [1#8]) .empty)
        [{ Line.quiet with desCtrl := 0x0AB#10 }])
      (fun t =>
        decide (t.des = (desWith .awaitingB (accWith 3#8 [1#8, 2#8, 3#8]) (accWith 2#8 [1#8]) .empty).des) &&
          !t.desOut.sigValid) = true := by decide
/-- D-RD-C3 and D-RD-C4. -/
theorem test_rd_at_the_end_of_the_range :
    afterExec (.rd .c 3#8) endOfW1 (fun t => t.desOut.rdValid && t.desOut.rdData == 4#8) = true ∧
    afterExec (.rd .c 4#8) endOfW1 (fun t => !t.desOut.rdValid && t.desOut.rdData == 0#8) = true := by decide
/-- D-RD-SAME: the read of the last byte's cycle sees the state before the edge. -/
theorem test_rd_in_the_cycle_of_the_last_byte :
    afterStep (presenting lastByteOfW1 [{ Line.quiet with desCtrl := 0x104#10, desRd := 0x203#10 }]) (fun t =>
      t.desOut.sig == 0b01#2 && !t.desOut.rdValid && t.desOut.rdData == 0#8 && decide (t.des = endOfW1.des)) = true := by
  decide
/-- A-VALLAST: a value byte 0x00 is data, and completes the field. -/
theorem test_accFeed_last_value :
    afterExec (.accFeed 0#8) (aloneWith 31 (accWith 3#8 [7#8, 8#8])) (fun t =>
      t.accOut.outcome == 0b01#2 && t.acc.filled == 3 && readCell t.acc.storage 2 == 0#8) = true := by decide
/-- A-N0-BAD and A-N255: the ends of the range of N. -/
theorem test_accFeed_capacity_0_and_255 :
    afterExec (.accFeed 1#8) (aloneWith 0 .empty) (fun t => t.accOut.outcome == 0b10#2 && !t.acc.lenSet) = true ∧
    afterExec (.accFeed 255#8) (aloneWith 255 .empty) (fun t => t.accOut.outcome == 0b00#2 && t.acc.len == 255#8) = true := by
  decide
/-- A-CLRFEED. -/
theorem test_accClear_discards_the_byte :
    afterStep (presenting (aloneWith 31 (accWith 3#8 [9#8])) [{ Line.quiet with accCtrl := 0x3AB#10 }])
      (fun t => decide (t.acc = State.reset.acc) && !t.accOut.outcomeValid) = true := by decide
/-- A-IDLE. -/
theorem test_accIdle_ignores_the_byte :
    afterStep (presenting (aloneWith 31 (accWith 3#8 [9#8])) [{ Line.quiet with accCtrl := 0x0FF#10 }])
      (fun t => decide (t.acc = accWith 3#8 [9#8]) && !t.accOut.outcomeValid) = true := by decide
/-- A-RD-SAME: the byte fed in this cycle is not readable in it. -/
theorem test_accRd_in_the_cycle_of_a_feed :
    afterStep (presenting (aloneWith 31 (accWith 3#8 [9#8])) [{ Line.quiet with accCtrl := 0x133#10, accRd := 1#8 }])
      (fun t => t.accOut.outcome == 0b00#2 && !t.accOut.rdValid && readCell t.acc.storage 1 == 0x33#8) = true := by decide
/-- A-RD-INCOMPLETE. -/
theorem test_accRd_of_an_incomplete_field :
    afterExec (.accRd 0#8) (aloneWith 31 (accWith 3#8 [0x10#8])) (fun t =>
      t.accOut.rdValid && t.accOut.rdData == 0x10#8) = true := by decide
/-- D-UNUSED: an unused tag code is inert. -/
theorem test_adv_unused_tag :
    afterExec (.adv 5#8) (desWith .unused5 .empty .empty .empty) (fun t =>
      t.desOut.sig == 0b11#2 && decide (t.des.tag = .unused5)) = true := by decide
/-- D-ST: the status outputs at the end of W1. -/
theorem test_status_outputs :
    afterStep (presenting endOfW1 [Line.quiet]) (fun t =>
      decide (t.desOut.status =
        { stTag := 0b011#3, stLenSetA := true, stLenA := 0x03#8, stFilledA := 0x03#8, stLenSetB := true, stLenB := 0x02#8
          stFilledB := 0x02#8, stLenSetC := true, stLenC := 0x04#8, stFilledC := 0x04#8 })) = true := by decide
/-- The first line of P1 and the length byte of W1 through `withFetchWord`. -/
theorem test_withFetchWord :
    afterStep (State.reset.withFetchWord 16 0x103) (fun t => decide (t.des.accA = accWith 3#8 []) && t.stimulus.isEmpty) = true := by
  decide
theorem test_withFetchWord_refuses_wide : step (State.reset.withFetchWord 16 0x400) = .refused .undefinedInput := rfl
/-- R71: `FIELD []` is just `ADV 0`. -/
theorem test_expand_empty_field : expand (.field []) = some [.des (.adv 0#8)] := rfl

/-! ### Witnesses: states and operands that meet the hypotheses of each statement -/

theorem witness_DecodeOfEncodeIsTheOperation : (Instr.rd .reserved 255#8).wellFormed = true := rfl

/-- Both ends of each range of words, and the first bits too wide for a 10-bit and for an 8-bit port; the ranges of one
port do not meet. -/
theorem witness_EveryWordDecodes :
    (0x200 ≤ 0x3FF ∧ 0x3FF < 0x400) ∧ (0x100 ≤ 0x1FF ∧ 0x1FF < 0x200) ∧ 0xFF < 0x100 ∧ 0x100 ≤ 0x100 ∧ (0x200 ≤ 0x2FF ∧ 0x2FF < 0x300) ∧
    (0x300 ≤ 0x300 ∧ 0x300 < 0x400) ∧ 0x400 ≤ 0x400 := by decide

theorem witness_RowCoversExactlyItsWords : 0x3FF < 2 ^ (Instr.rst).format.width ∧ (Instr.rst).row.covers 0x3FF = true := by decide

set_option maxRecDepth 4000 in
theorem witness_FrameExpansionLength :
    ((List.replicate 255 0#8).length ≤ 255 ∧ ([] : List Byte).length ≤ 255) ∧ 255 < (List.replicate 256 0#8).length := by decide

/-- A line with work for all four operations, and the four decodings. -/
def busyLine : Line := { desCtrl := 0x104#10, desRd := 0x203#10, accCtrl := 0x133#10, accRd := 1#8 }
def busyState : State := { presenting lastByteOfW1 [busyLine] with acc := accWith 3#8 [9#8] }

theorem witness_StepRunsTheDecodedOperations :
    busyState.stimulus = .driven busyLine :: [] ∧
    decode .desRd busyLine.desRd.toNat = .ok (.rd .c 3#8) ∧ decode .accRd busyLine.accRd.toNat = .ok (.accRd 1#8) ∧
    decode .desCtrl busyLine.desCtrl.toNat = .ok (.adv 4#8) ∧
    decode .accCtrl busyLine.accCtrl.toNat = .ok (.accFeed 0x33#8) := by decide

theorem witness_StepRunsTheDecodedOperations_completes :
    ∃ s1 s2 s3 s4, exec (.rd .c 3#8) busyState = .next s1 ∧ exec (.accRd 1#8) s1 = .next s2 ∧ exec (.adv 4#8) s2 = .next s3 ∧
      exec (.accFeed 0x33#8) s3 = .next s4 := ⟨_, _, _, _, rfl, rfl, rfl, rfl⟩

/-- A state no run reaches: 31 bytes filled of a declared 40, in a capacity of 31. -/
def overfullAcc : Accumulator := { lenSet := true, len := 40#8, filled := 31, storage := [] }

theorem witness_fault_of_adv : exec (.adv 1#8) (desWith .awaitingA overfullAcc .empty .empty) = .fault (.noSuchCell 31) := rfl

theorem witness_fault_of_accFeed : exec (.accFeed 1#8) (aloneWith 31 overfullAcc) = .fault (.noSuchCell 31) := rfl

/-- A step that completes: the hypotheses of the statements about `step s = .next t`. -/
theorem witness_step_completes :
    busyState.stimulus = .driven busyLine :: [] ∧ ∃ t, step busyState = .next t ∧ t.desOut.sig = 0b01#2 ∧
      t.desOut.sigValid = true := ⟨rfl, _, rfl, rfl, rfl⟩

theorem witness_NoStepWithoutADefinedInput :
    State.reset.stimulus = [] ∧ ({ State.reset with stimulus := [.undefined] } : State).stimulus = .undefined :: [] := ⟨rfl, rfl⟩

theorem witness_OneResetCycleAfterPowerOn :
    (({ Line.quiet with desCtrl := 0x200#10, accCtrl := 0x200#10 } : Line).desCtrl.getLsbD 9 = true) ∧
    (({ Line.quiet with desCtrl := 0x200#10, accCtrl := 0x200#10 } : Line).accCtrl.getLsbD 9 = true) := by decide

/-- A cycle with both `rst` inputs and both bytes, in a Complete state; and the same cycle without `rst`. -/
theorem witness_RstTakesPriorityOverAByte :
    ∃ t t',
      step (presenting endOfW1 [{ Line.quiet with desCtrl := 0x305#10, accCtrl := 0x3AB#10 }]) = .next t ∧
      step (presenting endOfW1 [{ Line.quiet with desCtrl := 0x105#10, accCtrl := 0x101#10 }]) = .next t' ∧
      (0x305#10 : Word10).getLsbD 9 = true ∧ (0x3AB#10 : Word10).getLsbD 9 = true := ⟨_, _, rfl, rfl, by decide, by decide⟩

/-- The four cases of ACC.FEED, at the ends of their ranges (N = 31): 32, 31 and 0 as lengths, the last value byte
of a full field, and a complete one. -/
theorem witness_AccFeed_cases :
    ((Accumulator.empty).lenSet = false ∧ (31 : Capacity).val < (32#8 : Byte).toNat) ∧
    (31#8 : Byte).toNat ≤ (31 : Capacity).val ∧ (0#8 : Byte).toNat ≤ (31 : Capacity).val ∧
    ((accWith 31#8 (List.replicate 30 1#8)).lenSet = true ∧
      (accWith 31#8 (List.replicate 30 1#8)).filled < (accWith 31#8 (List.replicate 30 1#8)).len.toNat ∧
      (accWith 31#8 (List.replicate 30 1#8)).len.toNat ≤ (31 : Capacity).val) ∧
    ((accWith 3#8 [1#8, 2#8, 3#8]).lenSet = true ∧
      (accWith 3#8 [1#8, 2#8, 3#8]).filled = (accWith 3#8 [1#8, 2#8, 3#8]).len.toNat) := by decide

/-- The flag part: a feed that completes from a state that keeps the invariant and is not complete. -/
theorem witness_AccFeed_flags :
    AccInv 31 (accWith 3#8 [1#8, 2#8]) ∧ isComplete (accWith 3#8 [1#8, 2#8]) = false ∧
    ∃ t, exec (.accFeed 3#8) (aloneWith 31 (accWith 3#8 [1#8, 2#8])) = .next t ∧ t.accOut.outcome = 0b01#2 :=
  ⟨by decide, by decide, _, rfl, by decide⟩

/-- Feeds that report each of the four outcomes (AccFeedFrame, OneDatumWrittenPerAcceptedFeed). -/
theorem witness_AccFeed_outcomes :
    afterExec (.accFeed 0xAA#8) (aloneWith 31 (accWith 3#8 [])) (fun t => t.accOut.outcome == 0b00#2) = true ∧
    afterExec (.accFeed 0#8) (aloneWith 31 .empty) (fun t => t.accOut.outcome == 0b01#2) = true ∧
    afterExec (.accFeed 0xFF#8) (aloneWith 31 .empty) (fun t => t.accOut.outcome == 0b10#2) = true ∧
    afterExec (.accFeed 7#8) (aloneWith 31 (accWith 0#8 [])) (fun t => t.accOut.outcome == 0b11#2) = true := by decide

theorem witness_AccRdReadsTheValidRange :
    ((1#8 : Byte).toNat < (accWith 2#8 [0x11#8, 0x22#8]).filled ∧ (1#8 : Byte).toNat < (31 : Capacity).val) ∧
    (accWith 2#8 [0x11#8, 0x22#8]).filled ≤ (2#8 : Byte).toNat := by decide

/-- L = 0, L = N and L > N. -/
theorem witness_AccFeedSequence :
    (State.reset.acc.lenSet = false ∧ State.reset.acc.filled = 0) ∧ ([] : List Byte).length ≤ State.reset.params.nAcc.val ∧
    (List.replicate 31 5#8).length ≤ State.reset.params.nAcc.val ∧ State.reset.params.nAcc.val < (32#8 : Byte).toNat := by decide

/-- Operations that change `len_set`, `filled` and a cell, each way (LengthIsSetOnceBetweenResets,
FilledGrowsByOneOrResets, StorageChangesOnlyAtFilled, TagMovesOnlyByAdvAndRst). -/
theorem witness_register_changes :
    afterExec .accClear (aloneWith 31 (accWith 1#8 [5#8])) (fun t => !t.acc.lenSet && readCell t.acc.storage 0 == 0#8) = true ∧
    afterExec (.accFeed 31#8) (aloneWith 31 .empty) (fun t => t.acc.lenSet) = true ∧
    afterExec (.accFeed 5#8) (aloneWith 31 (accWith 1#8 [])) (fun t => t.acc.lenSet && readCell t.acc.storage 0 == 5#8) = true ∧
    afterExec .rst endOfW1 (fun t => !t.des.accA.lenSet && decide (t.des.tag = .awaitingA)) = true ∧
    afterExec (.adv 31#8) State.reset (fun t => t.des.accA.lenSet) = true ∧
    afterExec (.adv 4#8) lastByteOfW1 (fun t => readCell t.des.accC.storage 3 == 4#8 && decide (t.des.tag = .complete)) = true := by
  decide

/-- The cases of ADV with field A active (capacity 31): lengths 32, 0 and 31, a value byte that is not the last, the
last one, and an accumulator already complete; and a terminal and an unused tag. -/
theorem witness_Adv_cases :
    State.reset.des.tag = awaitingTag .a ∧
    ((accOf State.reset.des .a).lenSet = false ∧ (capacityOf State.reset.params .a).val < (32#8 : Byte).toNat) ∧
    (0#8 : Byte).toNat = 0 ∧ (0 < (31#8 : Byte).toNat ∧ (31#8 : Byte).toNat ≤ (capacityOf State.reset.params .a).val) ∧
    ((accWith 31#8 (List.replicate 29 1#8)).filled + 1 < (accWith 31#8 (List.replicate 29 1#8)).len.toNat) ∧
    ((accWith 31#8 (List.replicate 30 1#8)).filled + 1 = (accWith 31#8 (List.replicate 30 1#8)).len.toNat) ∧
    ((accWith 1#8 [1#8]).filled = (accWith 1#8 [1#8]).len.toNat) ∧
    endOfW1.des.tag ∈ [Tag.complete, .error, .unused5, .unused6, .unused7] := by decide

theorem witness_AdvFollowsTheTransitionTable :
    lastByteOfW1.des.tag = awaitingTag .c ∧
    feedAcc (capacityOf lastByteOfW1.params .c) 4#8 (accOf lastByteOfW1.des .c) = .ok (endOfW1.des.accC, .fieldComplete) ∧
    transitionTable lastByteOfW1.des.tag .fieldComplete = some (.complete, .frameComplete) := ⟨by decide, by rfl, by decide⟩

theorem witness_AdvReadsOnlyTheActiveAccumulator :
    lastByteOfW1.des.tag = awaitingTag .c ∧
    accOf (desWith .awaitingC .empty .empty lastByteOfW1.des.accC).des .c = accOf lastByteOfW1.des .c ∧
    ∃ t, exec (.adv 4#8) lastByteOfW1 = .next t := ⟨by decide, rfl, _, rfl⟩

theorem witness_TerminalStatesAreInert : endOfW1.des.tag = .complete ∧ (desWith .error .empty .empty .empty).des.tag = .error := ⟨rfl, rfl⟩

theorem witness_UnusedTagCodesAreInert : (desWith .unused7 .empty .empty .empty).des.tag = .unused7 := rfl

theorem witness_RdReadsACompletedFrame :
    (FieldSel.c = selectOf .c ∧ endOfW1.des.tag = .complete ∧ (3#8 : Byte).toNat < (accOf endOfW1.des .c).filled ∧
      (3#8 : Byte).toNat < (capacityOf endOfW1.params .c).val) ∧
    (accOf endOfW1.des .c).filled ≤ (4#8 : Byte).toNat ∧ lastByteOfW1.des.tag ≠ .complete := by decide

set_option synthInstance.maxSize 512 in
/-- A good state in which an ADV is Malformed (D-B41), for the statements about Malformed. -/
theorem witness_Malformed :
    (desWith .awaitingB (accWith 0#8 []) .empty .empty).Inv ∧
    (desWith .awaitingB (accWith 0#8 []) .empty .empty).des.tag = awaitingTag .b ∧
    ∃ t, exec (.adv 41#8) (desWith .awaitingB (accWith 0#8 []) .empty .empty) = .next t ∧ t.desOut.sig = 0b10#2 :=
  ⟨by decide, rfl, _, rfl, by decide⟩

set_option synthInstance.maxSize 512 in
theorem witness_reset_inv : State.reset.Inv := by decide

set_option synthInstance.maxSize 512 in
theorem witness_endOfW1_inv : endOfW1.Inv := by decide

set_option synthInstance.maxSize 512 in
/-- A good state whose next cycle reports FrameComplete, and a good Complete state whose next cycle is RST with a read of C,3. -/
theorem witness_FrameIsReadableFromTheNextCycle :
    (presenting lastByteOfW1 [busyLine]).Inv ∧
    (∃ t, step (presenting lastByteOfW1 [busyLine]) = .next t ∧ t.desOut.sig = 0b01#2 ∧
      (3#8 : Byte).toNat < (accOf t.des .c).len.toNat) ∧
    ((presenting endOfW1 [{ Line.quiet with desCtrl := 0x200#10, desRd := 0x203#10 }]).Inv ∧
      endOfW1.des.tag = .complete ∧ (0x200#10 : Word10).getLsbD 9 = true ∧ (0x203#10 : Word10) = rdWord (selectOf .c) 3#8 ∧
      (3#8 : Byte).toNat < (accOf endOfW1.des .c).len.toNat ∧
      ∃ t, step (presenting endOfW1 [{ Line.quiet with desCtrl := 0x200#10, desRd := 0x203#10 }]) = .next t) :=
  ⟨by decide, ⟨_, rfl, by decide, by decide⟩, by decide, rfl, by decide, by decide, by decide, _, rfl⟩

set_option synthInstance.maxSize 512 in
theorem witness_CompleteFrameIsHandedOff :
    endOfW1.Inv ∧ endOfW1.des.tag = .complete ∧ (3#8 : Byte).toNat < (accOf endOfW1.des .c).len.toNat ∧
    (accOf endOfW1.des .c).len.toNat ≤ (4#8 : Byte).toNat := by decide

set_option synthInstance.maxSize 512 in
/-- A good state and a step that completes (StepKeepsTheInvariants, StatusOutputsShowTheRegisters, EveryLineCompletesInAGoodState). -/
theorem witness_good_step : busyState.Inv ∧ busyState.stimulus = .driven busyLine :: [] ∧ ∃ t, step busyState = .next t :=
  ⟨by decide, rfl, _, rfl⟩

/-- Two machines with different stand-alone accumulators and accumulator words, and the same deserializer and words. -/
theorem witness_InstancesShareNoState :
    busyState.des = (presenting lastByteOfW1 [{ busyLine with accCtrl := 0x200#10 }]).des ∧
    (∃ t, step busyState = .next t) ∧ ∃ t', step (presenting lastByteOfW1 [{ busyLine with accCtrl := 0x200#10 }]) = .next t' :=
  ⟨rfl, ⟨_, rfl⟩, _, rfl⟩

/-- Two machines that differ in a cell beyond `filled` only. -/
theorem witness_CellsBeyondFilledAreUnobservable :
    (aloneWith 31 { accWith 3#8 [9#8] with storage := [(0, 9#8), (5, 7#8)] }).SameVisible (aloneWith 31 (accWith 3#8 [9#8])) := by
  refine ⟨rfl, rfl, rfl, rfl, rfl, ⟨rfl, rfl, rfl, ?_⟩, ⟨rfl, rfl, rfl, ?_⟩, ⟨rfl, rfl, rfl, ?_⟩, rfl, rfl, rfl, ?_⟩
  all_goals decide

/-- A fresh machine with the lines of `FRAME [], [], [0x55]` to come. -/
theorem witness_ValidFrameReachesComplete :
    State.reset.des = State.reset.des ∧ ([] : List Byte).length ≤ State.reset.params.nA.val ∧
    (List.replicate 64 5#8).length ≤ State.reset.params.nC.val ∧
    (presenting State.reset ((advLines (frameBytes [] [] [0x55#8])).map asmInput)).stimulus =
      asmInputs (advLines (frameBytes [] [] [0x55#8])) ++ [] := ⟨rfl, by decide, by decide, rfl⟩

/-- Two cycles with bytes and no `rst` in a Complete state. -/
theorem witness_OnlyRstLeavesATerminalState :
    endOfW1.des.tag = .complete ∧ (asmInput (.des (.adv 99#8))).desCtrl.getLsbD 9 = false ∧
    ∃ t, Sys2Proof.core.run 2 (presenting endOfW1 [asmInput (.des (.adv 99#8)), asmInput (.des .idle)]) = .next t :=
  ⟨rfl, by decide, _, rfl⟩

theorem witness_WaitingChangesNoRegister :
    expand (.wait 1) = some [.des .idle] ∧
    (presenting lastByteOfW1 [asmInput (.des .idle)]).stimulus = asmInputs [.des .idle] ++ [] := ⟨rfl, rfl⟩

/-- A run whose first line reports FrameComplete. -/
theorem witness_ReportedFrameSucceeds :
    (observe 1 (presenting lastByteOfW1 [busyLine])).any (fun p => reports .frameComplete p.2) = true := by decide

end Sys2Proof.Tests
end

section
/-! SUPPORT. What one operation, of either block, can do to the deserializer and to one accumulator: the inversion
lemmas of `exec` that the statements about registers cite. -/

namespace Sys2Proof.Machine

@[simp] theorem accOf_fresh (X : Field) : accOf .fresh X = .empty := by
  cases X <;> rfl

/-- Every operation leaves the deserializer alone, but `RST` and an `ADV` that completes. -/
theorem exec_des_cases {i : Instr} {s t : State} (h : exec i s = .next t) :
    t.des = s.des ∨ (i = .rst ∧ t.des = .fresh) ∨
    ∃ b g, i = .adv b ∧ advanceDes s.params b s.des = .ok (t.des, g) := by
  cases i with
  | adv b =>
    obtain ⟨d, g, hd, rfl⟩ := exec_adv_next h
    exact .inr (.inr ⟨b, g, rfl, hd⟩)
  | rst => cases h; exact .inr (.inl ⟨rfl, rfl⟩)
  | accFeed b =>
    obtain ⟨a, o, -, rfl⟩ := exec_accFeed_next h
    exact .inl rfl
  | idle => cases h; exact .inl rfl
  | rd f j => cases h; exact .inl rfl
  | accClear => cases h; exact .inl rfl
  | accIdle => cases h; exact .inl rfl
  | accRd j => cases h; exact .inl rfl

/-- How one operation may change an accumulator of capacity `n`: not at all, by a reset, or by a byte it was fed.
`resets` and `feeds b` say which operation does so. -/
inductive AccChange (n : Capacity) (resets : Prop) (feeds : Byte → Prop) (a : Accumulator) : Accumulator → Prop
  | kept : AccChange n resets feeds a a
  | reset (hr : resets) : AccChange n resets feeds a .empty
  | fed {b : Byte} {a' : Accumulator} {o : Report} (hb : feeds b) (hf : feedAcc n b a = .ok (a', o)) :
      AccChange n resets feeds a a'

/-- The stand-alone accumulator is reset by `ACC.CLEAR` and fed by `ACC.FEED` (40_field_accumulator.md R72, R75). -/
theorem exec_acc_change {i : Instr} {s t : State} (h : exec i s = .next t) :
    AccChange s.params.nAcc (i = .accClear) (fun b => i = .accFeed b) s.acc t.acc := by
  cases i with
  | accFeed b =>
    obtain ⟨a, o, ha, rfl⟩ := exec_accFeed_next h
    exact .fed rfl ha
  | accClear => cases h; exact .reset rfl
  | adv b =>
    obtain ⟨d, g, -, rfl⟩ := exec_adv_next h
    exact .kept
  | rst => cases h; exact .kept
  | idle => cases h; exact .kept
  | rd f j => cases h; exact .kept
  | accIdle => cases h; exact .kept
  | accRd j => cases h; exact .kept

/-- `acc_X` is reset by `RST`, and fed by an `ADV` while the tag is Awaiting X (41_frame_deserializer.md R79, R84). -/
theorem exec_accOf_change {i : Instr} {s t : State} (h : exec i s = .next t) (X : Field) :
    AccChange (capacityOf s.params X) (i = .rst) (fun b => i = .adv b ∧ s.des.tag = awaitingTag X)
      (accOf s.des X) (accOf t.des X) := by
  rcases exec_des_cases h with hd | ⟨rfl, hd⟩ | ⟨b, g, rfl, -⟩
  · rw [hd]
    exact .kept
  · rw [hd, accOf_fresh]
    exact .reset rfl
  · rcases adv_feeds_active h X with hk | ⟨htag, o, hf⟩
    · rw [hk]
      exact .kept
    · exact .fed ⟨rfl, htag⟩ hf

end Sys2Proof.Machine
end

section
/-! PROOFS. The registers of an accumulator, 10_state.md R17 to R20: each rule once for `AccChange`, then for all four
accumulators. -/

namespace Sys2Proof.Machine

section
variable {n : Capacity} {resets : Prop} {feeds : Byte → Prop} {a a' : Accumulator}

/-- The length rule, 10_state.md R17. -/
theorem AccChange.length_set_once (h : AccChange n resets feeds a a') :
    (a.lenSet = true → a'.lenSet = false → resets) ∧
    (a.lenSet = false → a'.lenSet = true → ∃ b, feeds b ∧ b.toNat ≤ n.val ∧ a'.len = b) ∧
    (a.lenSet = true → a'.lenSet = true → a'.len = a.len) := by
  cases h with
  | kept => simp +contextual
  | reset hr => simp [Accumulator.empty, hr]
  | @fed b _ o hb hf =>
    rcases feedAcc_cases hf with ⟨hl, -, rfl, -⟩ | ⟨hl, hle, rfl, -⟩ | ⟨hl, -, rfl, -⟩ | ⟨hl, -, -, rfl, -⟩
    · simp [hl]
    · simp only [hl, acceptLength, Bool.false_eq_true, false_implies, true_and, and_true]
      exact fun _ _ => ⟨b, hb, hle, rfl⟩
    · simp [hl]
    · simp [hl]

/-- The counter rule, 10_state.md R19. -/
theorem AccChange.filled_grows_or_resets (h : AccChange n resets feeds a a') :
    a'.filled = a.filled ∨ (resets ∧ a'.filled = 0) ∨
    (a'.filled = a.filled + 1 ∧ ∃ b, feeds b ∧ a.lenSet = true ∧ readCell a'.storage a.filled = b) := by
  cases h with
  | kept => exact .inl rfl
  | reset hr => exact .inr (.inl ⟨hr, rfl⟩)
  | @fed b _ o hb hf =>
    rcases feedAcc_cases hf with ⟨-, -, rfl, -⟩ | ⟨-, -, rfl, -⟩ | ⟨-, -, rfl, -⟩ | ⟨hl, -, -, rfl, -⟩
    · exact .inl rfl
    · exact .inl rfl
    · exact .inl rfl
    · exact .inr (.inr ⟨rfl, b, hb, hl, readCell_writeCell_same _ _ _⟩)

/-- The storage rule, 10_state.md R20 and 20_memory.md R44. -/
theorem AccChange.cell_changes_at_filled (h : AccChange n resets feeds a a') {j : Nat}
    (hj : readCell a'.storage j ≠ readCell a.storage j) :
    resets ∨ ∃ b, feeds b ∧ a.lenSet = true ∧ j = a.filled ∧ j < n.val ∧ readCell a'.storage j = b := by
  cases h with
  | kept => exact absurd rfl hj
  | reset hr => exact .inl hr
  | @fed b _ o hb hf =>
    rcases feedAcc_cases hf with ⟨-, -, rfl, -⟩ | ⟨-, -, rfl, -⟩ | ⟨-, -, rfl, -⟩ | ⟨hl, -, hn, rfl, -⟩
    · exact absurd rfl hj
    · exact absurd rfl hj
    · exact absurd rfl hj
    · have hjf : j = a.filled := by
        by_contra hne
        exact hj (readCell_writeCell_other _ b hne)
      subst hjf
      exact .inr ⟨b, hb, hl, rfl, hn, readCell_writeCell_same _ _ _⟩

end

/-- Settles O23: the length rule holds of each accumulator's change under one operation. -/
theorem lengthIsSetOnceBetweenResets : Obligations.LengthIsSetOnceBetweenResets := by
  intro i s t h
  refine ⟨(exec_acc_change h).length_set_once, fun X => ?_⟩
  simpa only [and_assoc] using (exec_accOf_change h X).length_set_once

/-- Settles O24: the counter rule holds of each accumulator's change under one operation. -/
theorem filledGrowsByOneOrResets : Obligations.FilledGrowsByOneOrResets := by
  intro i s t h
  refine ⟨(exec_acc_change h).filled_grows_or_resets, fun X => ?_⟩
  simpa only [and_assoc] using (exec_accOf_change h X).filled_grows_or_resets

/-- Settles O25: the storage rule holds of each accumulator's change under one operation. -/
theorem storageChangesOnlyAtFilled : Obligations.StorageChangesOnlyAtFilled := by
  intro i s t j h
  refine ⟨(exec_acc_change h).cell_changes_at_filled, fun X hj => ?_⟩
  simpa only [and_assoc] using (exec_accOf_change h X).cell_changes_at_filled hj

end Sys2Proof.Machine
end

section
/-! PROOFS. The tag, 10_state.md R27. -/

namespace Sys2Proof.Machine

/-- The reaction to a report keeps the tag, moves it to the field's next tag, or enters Error (R80). -/
theorem reactTo_tag (X : Field) (o : Report) (d : Deserializer) :
    (reactTo X o d).1.tag = d.tag ∨ (reactTo X o d).1.tag = nextTag X ∨ (reactTo X o d).1.tag = .error := by
  cases o with
  | needsMore => exact .inl rfl
  | fieldComplete => exact .inr (.inl rfl)
  | lengthInvalid => exact .inr (.inr rfl)
  | overfeed => exact .inr (.inr rfl)

/-- An `ADV` that moves the tag finds a field active, and moves to that field's next tag or to Error. -/
theorem advanceDes_moves_tag {p : Params} {b : Byte} {d d' : Deserializer} {g : Signal}
    (h : advanceDes p b d = .ok (d', g)) (hne : d'.tag ≠ d.tag) :
    ∃ X, d.tag = awaitingTag X ∧ (d'.tag = nextTag X ∨ d'.tag = .error) := by
  rcases advanceDes_cases h with ⟨-, rfl, -⟩ | ⟨X, a, o, hX, -, hr⟩
  · exact absurd rfl hne
  · have htag := reactTo_tag X o (withAcc d X a)
    rw [hr, withAcc_tag] at htag
    exact ⟨X, activeField_eq_some.1 hX, htag.resolve_left hne⟩

/-- Settles O42: only `RST` and `ADV` write the deserializer, and an `ADV` moves the tag by the reaction to a report. -/
theorem tagMovesOnlyByAdvAndRst : Obligations.TagMovesOnlyByAdvAndRst := by
  intro i s t h hne
  rcases exec_des_cases h with hd | ⟨rfl, hd⟩ | ⟨b, g, rfl, hd⟩
  · exact absurd (congrArg Deserializer.tag hd) hne
  · exact .inl ⟨rfl, congrArg Deserializer.tag hd⟩
  · obtain ⟨X, hX, hmove⟩ := advanceDes_moves_tag hd hne
    refine .inr ⟨b, rfl, ?_⟩
    cases X with
    | a => exact .inl ⟨hX, hmove⟩
    | b => exact .inr (.inl ⟨hX, hmove⟩)
    | c => exact .inr (.inr ⟨hX, hmove⟩)

end Sys2Proof.Machine
end

section
/-! PROOFS. Reset values, 10_state.md R34 and R35, and `RST`, 41_frame_deserializer.md R84. -/

namespace Sys2Proof.Machine

/-- Settles O12: every accumulator of the reset state is the empty one, whose cells all read 0x00. -/
theorem resetValues : Obligations.ResetValues := by
  refine ⟨rfl, fun X => ?_, ⟨rfl, rfl, rfl, readCell_nil⟩, rfl, rfl, rfl⟩
  have hX : accOf State.reset.des X = .empty := accOf_fresh X
  rw [hX]
  exact ⟨rfl, rfl, rfl, readCell_nil⟩

/-- Settles O13: the next registers are the constructed ones whatever they were. -/
theorem rstConstructsTheBlockFromAnyState : Obligations.RstConstructsTheBlockFromAnyState :=
  fun s => ⟨exec_rst s, readCell_nil⟩

end Sys2Proof.Machine
end

section
/-! SUPPORT. The invariants of 10_state.md R22, R28 and R29 under one feed, one `ADV` and one cycle. -/

namespace Sys2Proof.Machine

/-- The deserializer's share of `State.Inv`. -/
def DesInv (p : Params) (d : Deserializer) : Prop :=
  (∀ X, AccInv (capacityOf p X) (accOf d X)) ∧ TagInv d

theorem inv_iff {s : State} : s.Inv ↔ DesInv s.params s.des ∧ AccInv s.params.nAcc s.acc := by
  constructor
  · exact fun hi => ⟨⟨accInv_accOf hi, hi.2.1⟩, hi.2.2⟩
  · rintro ⟨⟨hacc, htag⟩, halone⟩
    exact ⟨⟨hacc .a, hacc .b, hacc .c⟩, htag, halone⟩

theorem desInv_fresh (p : Params) : DesInv p .fresh := by
  refine ⟨fun X => ?_, (tagInv_iff _).2 ⟨rfl, ⟨rfl, rfl⟩, ⟨rfl, rfl⟩⟩⟩
  rw [accOf_fresh]
  exact accInv_empty _

/-- A feed keeps the accumulator's invariant, of a complete accumulator too: that one takes no byte. -/
theorem feedAcc_keeps_accInv {n : Capacity} {b : Byte} {a a' : Accumulator} {o : Report} (ha : AccInv n a)
    (h : feedAcc n b a = .ok (a', o)) : AccInv n a' := by
  cases hc : isComplete a with
  | false => exact (feedAcc_inv ha hc h).1
  | true =>
    obtain ⟨hl, hf⟩ := isComplete_iff.1 hc
    rw [feedAcc_overfeed hl hf] at h
    cases h
    exact ha

theorem accCycle_keeps_accInv {n : Capacity} {w : Word10} {a : Accumulator} {y : Accumulator × Bool × BitVec 2}
    (ha : AccInv n a) (h : accCycle n w a = .ok y) : AccInv n y.1 := by
  rcases accCycle_cases h with ⟨-, rfl⟩ | ⟨-, -, a', o, hf, rfl⟩ | ⟨-, -, rfl⟩
  · exact accInv_empty n
  · exact feedAcc_keeps_accInv ha hf
  · exact ha

/-! ### The table of R28 under the three reactions of R80 -/

section
variable {d : Deserializer} {X : Field} {a : Accumulator}

/-- Continue: the active field stays incomplete, and the tag stays. -/
theorem tagInv_of_incomplete (hd : TagInv d) (hX : d.tag = awaitingTag X) (ha : isComplete a = false) :
    TagInv (withAcc d X a) := by
  rw [tagInv_iff, hX] at hd
  rw [tagInv_iff, withAcc_tag, hX]
  cases X with
  | a => exact ⟨ha, hd.2⟩
  | b => exact ⟨hd.1, ha, hd.2.2⟩
  | c => exact ⟨hd.1, hd.2.1, ha⟩

/-- The active field completes, and the tag moves on: the next field is still empty, so not complete. -/
theorem tagInv_of_complete (hd : TagInv d) (hX : d.tag = awaitingTag X) (ha : isComplete a = true) :
    TagInv { withAcc d X a with tag := nextTag X } := by
  rw [tagInv_iff, hX] at hd
  rw [tagInv_iff]
  cases X with
  | a => exact ⟨ha, isComplete_of_empty hd.2.1, hd.2.2⟩
  | b => exact ⟨hd.1, ha, isComplete_of_empty hd.2.2⟩
  | c => exact ⟨hd.1, hd.2.1, ha⟩

/-- A rejected length: the active field is empty, and the tag is Error (R29). -/
theorem tagInv_of_rejected (hd : TagInv d) (hX : d.tag = awaitingTag X) (ha : AccEmpty a) :
    TagInv { withAcc d X a with tag := .error } := by
  rw [tagInv_iff, hX] at hd
  rw [tagInv_iff]
  cases X with
  | a => exact .inl ⟨ha, hd.2⟩
  | b => exact .inr (.inl ⟨hd.1, ha, hd.2.2⟩)
  | c => exact .inr (.inr ⟨hd.1, hd.2.1, ha⟩)

end

/-- An `ADV` keeps the deserializer's invariants. -/
theorem advanceDes_keeps_desInv {s : State} {b : Byte} {d : Deserializer} {g : Signal} (hi : s.Inv)
    (h : advanceDes s.params b s.des = .ok (d, g)) : DesInv s.params d := by
  obtain ⟨hacc, htag⟩ := (inv_iff.1 hi).1
  rcases advanceDes_cases h with ⟨-, rfl, -⟩ | ⟨X, a, o, hactive, hf, hr⟩
  · exact ⟨hacc, htag⟩
  have hX := activeField_eq_some.1 hactive
  obtain ⟨hinv, hover, hcomplete, hmore, hreject⟩ := feedAcc_inv (hacc X) (active_not_complete hi hX) hf
  obtain rfl : (reactTo X o (withAcc s.des X a)).1 = d := congrArg Prod.fst hr
  refine ⟨fun Y => ?_, ?_⟩
  · rw [accOf_reactTo]
    by_cases hYX : Y = X
    · subst hYX
      rwa [accOf_withAcc_same]
    · rw [accOf_withAcc_other _ _ hYX]
      exact hacc Y
  · cases o with
    | needsMore => exact tagInv_of_incomplete htag hX (hmore rfl)
    | fieldComplete => exact tagInv_of_complete htag hX (hcomplete rfl)
    | lengthInvalid =>
      obtain ⟨rfl, hempty⟩ := hreject rfl
      exact tagInv_of_rejected htag hX hempty
    | overfeed => exact absurd rfl hover

theorem desCycle_keeps_desInv {s : State} {w : Word10} {x : Deserializer × Bool × BitVec 2} (hi : s.Inv)
    (h : desCycle s.params w s.des = .ok x) : DesInv s.params x.1 := by
  rcases desCycle_cases h with ⟨-, rfl⟩ | ⟨-, -, d, g, hd, rfl⟩ | ⟨-, -, rfl⟩
  · exact desInv_fresh _
  · exact advanceDes_keeps_desInv hi hd
  · exact (inv_iff.1 hi).1

/-- The bounds of 10_state.md R22, length set or not. -/
theorem accInv_bounds {n : Capacity} {a : Accumulator} (h : AccInv n a) :
    a.filled ≤ a.len.toNat ∧ a.len.toNat ≤ n.val := by
  obtain ⟨-, hunset, hset⟩ := h
  cases hl : a.lenSet with
  | false =>
    obtain ⟨hf, hlen⟩ := hunset hl
    simp [hf, hlen]
  | true => exact hset hl

end Sys2Proof.Machine
end

section
/-! PROOFS. The invariants, and the status outputs in a state that keeps them (10_state.md R31, R32). -/

namespace Sys2Proof.Machine

/-- Settles O45: a fresh deserializer and an empty accumulator keep their shares of the invariants. -/
theorem resetStateIsGood : Obligations.ResetStateIsGood :=
  inv_iff.2 ⟨desInv_fresh _, accInv_empty _⟩

/-- Settles O46: each block's share of the invariants is kept by that block's own word. -/
theorem stepKeepsTheInvariants : Obligations.StepKeepsTheInvariants := by
  intro s t hi h
  obtain ⟨l, rest, x, y, -, hx, hy, rfl⟩ := step_cases h
  have hdes : DesInv s.params x.1 := desCycle_keeps_desInv hi hx
  have hacc : AccInv s.params.nAcc y.1 := accCycle_keeps_accInv (inv_iff.1 hi).2 hy
  exact inv_iff.2 ⟨hdes, hacc⟩

/-- The 8-bit output is exact: `filled` is at most `len`, a byte. -/
theorem filledOut_toNat {n : Capacity} {a : Accumulator} (h : AccInv n a) : (filledOut a.filled).toNat = a.filled := by
  have hlt : a.filled < 2 ^ 8 := lt_of_le_of_lt (accInv_bounds h).1 a.len.isLt
  rw [filledOut, BitVec.toNat_ofNat, Nat.mod_eq_of_lt hlt]

/-- What a status output of an accumulator that keeps its invariant shows, and its bounds (R22, R31). -/
theorem shown_of_accInv {n : Capacity} {a : Accumulator} (h : AccInv n a) :
    (filledOut a.filled).toNat = a.filled ∧ a.len.toNat ≤ n.val ∧ a.filled ≤ n.val := by
  obtain ⟨hfilled, hlen⟩ := accInv_bounds h
  exact ⟨filledOut_toNat h, hlen, hfilled.trans hlen⟩

/-- The codes of the legal tags are 0 to 4 (30_encoding.md R60). -/
theorem tagCode_le_four {t : Tag} (h : LegalTag t) : (tagCode t).toNat ≤ 4 := by
  rcases h with rfl | rfl | rfl | rfl | rfl <;> decide

/-- Settles O43: the outputs are those of the state before the edge, whose invariants bound `filled` by a byte. -/
theorem statusOutputsShowTheRegisters : Obligations.StatusOutputsShowTheRegisters := by
  intro s t hi h
  obtain ⟨l, rest, x, y, -, -, -, rfl⟩ := step_cases h
  obtain ⟨⟨hA, hB, hC⟩, ⟨hlegal, -⟩, hacc⟩ := hi
  obtain ⟨hexact, hlen, hfilled⟩ := shown_of_accInv hacc
  exact ⟨rfl, tagCode_le_four hlegal, ⟨rfl, rfl, shown_of_accInv hA⟩, ⟨rfl, rfl, shown_of_accInv hB⟩,
    ⟨rfl, rfl, shown_of_accInv hC⟩, rfl, rfl, hexact, hlen, hfilled, isComplete_iff⟩

end Sys2Proof.Machine
end

section
/-! PROOFS. The two instances share no state (10_state.md R37): of the parameters, the deserializer's operations read
its own three capacities alone. -/

namespace Sys2Proof.Machine

section
variable {p p' : Params} (hp : ∀ X, capacityOf p X = capacityOf p' X)
include hp

theorem advanceDes_congr (b : Byte) (d : Deserializer) : advanceDes p b d = advanceDes p' b d := by
  simp only [advanceDes, hp]

theorem desCycle_congr (w : Word10) (d : Deserializer) : desCycle p w d = desCycle p' w d := by
  simp only [desCycle, advanceDes_congr hp]

theorem readDes_congr (f : FieldSel) (i : Byte) (d : Deserializer) : readDes p f i d = readDes p' f i d := by
  simp only [readDes, hp]

end

/-- Settles O49: each block's part of the closed form of a cycle reads that block's own registers, capacities and words. -/
theorem instancesShareNoState : Obligations.InstancesShareNoState := by
  intro s s' t t' l l' rest rest' hs hs' h h'
  obtain ⟨m, r, x, y, hm, hx, hy, rfl⟩ := step_cases h
  obtain ⟨m', r', x', y', hm', hx', hy', rfl⟩ := step_cases h'
  rw [hs] at hm
  rw [hs'] at hm'
  cases hm
  cases hm'
  refine ⟨fun hdes hcap hctrl hrd => ?_, fun hacc hn hctrl hrd => ?_⟩
  · rw [hdes, desCycle_congr hcap, hctrl, hx'] at hx
    cases hx
    exact ⟨rfl, by simp only [afterCycle, hdes, hrd, readDes_congr hcap]⟩
  · rw [hacc, hn, hctrl, hy'] at hy
    cases hy
    exact ⟨rfl, by simp only [afterCycle, hacc, hn, hrd]⟩

end Sys2Proof.Machine
end

section
/-! SUPPORT. What machines that differ only in cells at and beyond `filled` do alike (10_state.md R23): outputs are
equal, and every operation keeps the relation. -/

namespace Sys2Proof.Machine

/-- Two answers alike: the same fault, or values that `R` relates. -/
def Alike {α : Type} (R : α → α → Prop) (r r' : Except Fault α) : Prop :=
  (∃ f, r = .error f ∧ r' = .error f) ∨ ∃ x x', r = .ok x ∧ r' = .ok x' ∧ R x x'

theorem Alike.error {α : Type} {R : α → α → Prop} (f : Fault) : Alike R (.error f) (.error f) := .inl ⟨f, rfl, rfl⟩

theorem Alike.ok {α : Type} {R : α → α → Prop} {x x' : α} (h : R x x') : Alike R (.ok x) (.ok x') :=
  .inr ⟨x, x', rfl, rfl, h⟩

/-- Two deserializers that agree on the tag and on all but the unobservable cells. -/
def DesSameVisible (d d' : Deserializer) : Prop :=
  d.tag = d'.tag ∧ ∀ X, SameVisible (accOf d X) (accOf d' X)

theorem state_sameVisible_iff {s s' : State} :
    s.SameVisible s' ↔ s.params = s'.params ∧ s.stimulus = s'.stimulus ∧ s.desOut = s'.desOut ∧
      s.accOut = s'.accOut ∧ DesSameVisible s.des s'.des ∧ SameVisible s.acc s'.acc := by
  constructor
  · rintro ⟨hp, hs, hd, ha, htag, hA, hB, hC, hacc⟩
    refine ⟨hp, hs, hd, ha, ⟨htag, fun X => ?_⟩, hacc⟩
    cases X with
    | a => exact hA
    | b => exact hB
    | c => exact hC
  · rintro ⟨hp, hs, hd, ha, ⟨htag, hX⟩, hacc⟩
    exact ⟨hp, hs, hd, ha, htag, hX .a, hX .b, hX .c, hacc⟩

theorem SameVisible.refl (a : Accumulator) : SameVisible a a := ⟨rfl, rfl, rfl, fun _ _ => rfl⟩

theorem DesSameVisible.refl (d : Deserializer) : DesSameVisible d d := ⟨rfl, fun _ => .refl _⟩

section
variable {a a' : Accumulator} (h : SameVisible a a')
include h

theorem SameVisible.accStatus_eq : accStatus a = accStatus a' := by
  obtain ⟨hl, hlen, hf, -⟩ := h
  simp only [accStatus, isComplete, hl, hlen, hf]

/-- A read is gated on `filled`, so it shows agreeing cells only (20_memory.md R43). -/
theorem SameVisible.readAcc_eq (n : Capacity) (i : Byte) : readAcc n i a = readAcc n i a' := by
  obtain ⟨-, -, hf, hcell⟩ := h
  rcases Nat.lt_or_ge i.toNat a.filled with hi | hi
  · simp only [readAcc, memRead, ← hf, hcell i.toNat hi]
  · rw [readAcc_invalid hi, readAcc_invalid (hf ▸ hi)]

/-- A value byte stored at `filled` makes that cell visible, with the same byte in both. -/
theorem SameVisible.store (b : Byte) :
    SameVisible { a with storage := writeCell a.storage a.filled b, filled := a.filled + 1 }
      { a' with storage := writeCell a'.storage a'.filled b, filled := a'.filled + 1 } := by
  obtain ⟨hl, hlen, hf, hcell⟩ := h
  refine ⟨hl, hlen, congrArg (· + 1) hf, fun i hi => ?_⟩
  simp only [← hf]
  rcases Nat.lt_succ_iff_lt_or_eq.1 hi with hlt | rfl
  · rw [readCell_writeCell_other _ b hlt.ne, readCell_writeCell_other _ b hlt.ne]
    exact hcell i hlt
  · rw [readCell_writeCell_same, readCell_writeCell_same]

/-- `ACC.FEED` decides from `len_set`, `len` and `filled` alone. -/
theorem SameVisible.feedAcc_alike (n : Capacity) (b : Byte) :
    Alike (fun r r' => SameVisible r.1 r'.1 ∧ r.2 = r'.2) (feedAcc n b a) (feedAcc n b a') := by
  have ⟨hl, hlen, hf, hcell⟩ := h
  cases hls : a.lenSet with
  | false =>
    have hls' := hl.symm.trans hls
    rcases Nat.lt_or_ge n.val b.toNat with hb | hb
    · rw [feedAcc_rejected hls hb, feedAcc_rejected hls' hb]
      exact .ok ⟨h, rfl⟩
    · rw [feedAcc_length hls hb, feedAcc_length hls' hb]
      exact .ok ⟨⟨rfl, rfl, hf, hcell⟩, rfl⟩
  | true =>
    have hls' := hl.symm.trans hls
    by_cases hc : a.filled = a.len.toNat
    · rw [feedAcc_overfeed hls hc, feedAcc_overfeed hls' (by rw [← hf, ← hlen, hc])]
      exact .ok ⟨h, rfl⟩
    · have hc' : a'.filled ≠ a'.len.toNat := by rwa [← hf, ← hlen]
      rcases Nat.lt_or_ge a.filled n.val with hn | hn
      · rw [feedAcc_value hls hc hn, feedAcc_value hls' hc' (hf ▸ hn)]
        exact .ok ⟨h.store b, by rw [hf, hlen]⟩
      · rw [feedAcc_noSuchCell hls hc hn, feedAcc_noSuchCell hls' hc' (hf ▸ hn), hf]
        exact .error _

theorem SameVisible.accCycle_alike (n : Capacity) (w : Word10) :
    Alike (fun y y' => SameVisible y.1 y'.1 ∧ y.2 = y'.2) (accCycle n w a) (accCycle n w a') := by
  unfold accCycle
  split
  · exact .ok ⟨.refl _, rfl⟩
  · split
    · rcases h.feedAcc_alike n (lowByte w) with ⟨f, hf, hf'⟩ | ⟨r, r', hr, hr', hvis, ho⟩
      · rw [hf, hf']
        exact .error f
      · rw [hr, hr']
        exact .ok ⟨hvis, by rw [ho]⟩
    · exact .ok ⟨h, rfl⟩

end

/-- An `ADV` passes on the fault of the feed it makes (log entry 8). -/
theorem advanceDes_error {p : Params} {b : Byte} {d : Deserializer} {X : Field} {f : Fault}
    (h : activeField d.tag = some X) (hf : feedAcc (capacityOf p X) b (accOf d X) = .error f) :
    advanceDes p b d = .error f := by
  simp [advanceDes, h, hf]

theorem DesSameVisible.write {d d' : Deserializer} (h : DesSameVisible d d') (X : Field) {a a' : Accumulator}
    (ha : SameVisible a a') : DesSameVisible (withAcc d X a) (withAcc d' X a') := by
  refine ⟨by rw [withAcc_tag, withAcc_tag, h.1], fun Y => ?_⟩
  by_cases hYX : Y = X
  · subst hYX
    rwa [accOf_withAcc_same, accOf_withAcc_same]
  · rw [accOf_withAcc_other _ _ hYX, accOf_withAcc_other _ _ hYX]
    exact h.2 Y

section
variable {d d' : Deserializer} (h : DesSameVisible d d')
include h

theorem DesSameVisible.desStatus_eq : desStatus d = desStatus d' := by
  obtain ⟨htag, hX⟩ := h
  obtain ⟨hlA, hlenA, hfA, -⟩ := hX .a
  obtain ⟨hlB, hlenB, hfB, -⟩ := hX .b
  obtain ⟨hlC, hlenC, hfC, -⟩ := hX .c
  simp only [accOf] at hlA hlenA hfA hlB hlenB hfB hlC hlenC hfC
  simp only [desStatus, htag, hlA, hlenA, hfA, hlB, hlenB, hfB, hlC, hlenC, hfC]

theorem DesSameVisible.readDes_eq (p : Params) (f : FieldSel) (i : Byte) : readDes p f i d = readDes p f i d' := by
  unfold readDes
  cases selectedField f with
  | none => rfl
  | some X => simp only [h.1, (h.2 X).readAcc_eq]

/-- The reaction to a report writes the tag alone, and the same in both. -/
theorem DesSameVisible.react (X : Field) (o : Report) :
    DesSameVisible (reactTo X o d).1 (reactTo X o d').1 ∧ (reactTo X o d).2 = (reactTo X o d').2 := by
  have hacc : ∀ Y, SameVisible (accOf (reactTo X o d).1 Y) (accOf (reactTo X o d').1 Y) := by
    simpa only [accOf_reactTo] using h.2
  cases o with
  | needsMore => exact ⟨⟨h.1, hacc⟩, rfl⟩
  | fieldComplete => exact ⟨⟨rfl, hacc⟩, rfl⟩
  | lengthInvalid => exact ⟨⟨rfl, hacc⟩, rfl⟩
  | overfeed => exact ⟨⟨rfl, hacc⟩, rfl⟩

theorem DesSameVisible.advanceDes_alike (p : Params) (b : Byte) :
    Alike (fun r r' => DesSameVisible r.1 r'.1 ∧ r.2 = r'.2) (advanceDes p b d) (advanceDes p b d') := by
  cases hX : activeField d.tag with
  | none =>
    have hX' : activeField d'.tag = none := h.1 ▸ hX
    rw [advanceDes_inactive hX, advanceDes_inactive hX']
    exact .ok ⟨h, rfl⟩
  | some X =>
    have hX' : activeField d'.tag = some X := h.1 ▸ hX
    rcases (h.2 X).feedAcc_alike (capacityOf p X) b with ⟨f, hf, hf'⟩ | ⟨r, r', hr, hr', hvis, ho⟩
    · rw [advanceDes_error hX hf, advanceDes_error hX' hf']
      exact .error f
    · rw [advanceDes_active hX hr, advanceDes_active hX' hr', ← ho]
      exact .ok ((h.write X hvis).react X r.2)

theorem DesSameVisible.desCycle_alike (p : Params) (w : Word10) :
    Alike (fun x x' => DesSameVisible x.1 x'.1 ∧ x.2 = x'.2) (desCycle p w d) (desCycle p w d') := by
  unfold desCycle
  split
  · exact .ok ⟨.refl _, rfl⟩
  · split
    · rcases h.advanceDes_alike p (lowByte w) with ⟨f, hf, hf'⟩ | ⟨r, r', hr, hr', hvis, hg⟩
      · rw [hf, hf']
        exact .error f
      · rw [hr, hr']
        exact .ok ⟨hvis, by rw [hg]⟩
    · exact .ok ⟨h, rfl⟩

end

end Sys2Proof.Machine
end

section
/-! PROOFS. Cells at and beyond `filled` are unobservable (10_state.md R23). -/

namespace Sys2Proof.Machine

/-- After a cycle with the same line, related states show equal outputs and stay related. -/
theorem afterCycle_sameVisible {s s' : State} (h : s.SameVisible s') (l : Line) (rest : List CycleInput)
    {x x' : Deserializer × Bool × BitVec 2} {y y' : Accumulator × Bool × BitVec 2}
    (hx : DesSameVisible x.1 x'.1 ∧ x.2 = x'.2) (hy : SameVisible y.1 y'.1 ∧ y.2 = y'.2) :
    (afterCycle s l rest x y).SameVisible (afterCycle s' l rest x' y') := by
  obtain ⟨hp, -, -, -, hdes, hacc⟩ := state_sameVisible_iff.1 h
  refine state_sameVisible_iff.2 ⟨hp, rfl, ?_, ?_, hx.1, hy.1⟩
  · simp only [afterCycle, hx.2, hp, hdes.readDes_eq, hdes.desStatus_eq]
  · simp only [afterCycle, hy.2, hp, hacc.readAcc_eq, hacc.accStatus_eq]

/-- Related states step alike: both refused, both stopped by the same fault, or to related states. -/
theorem step_alike {s s' : State} (h : s.SameVisible s') :
    (∃ r, step s = .refused r ∧ step s' = .refused r) ∨ (∃ f, step s = .fault f ∧ step s' = .fault f) ∨
    ∃ t t', step s = .next t ∧ step s' = .next t' ∧ t.SameVisible t' := by
  obtain ⟨hp, hstim, -, -, hdes, hacc⟩ := state_sameVisible_iff.1 h
  match hs : s.stimulus with
  | [] => exact .inl ⟨_, step_nil hs, step_nil (hstim ▸ hs)⟩
  | .undefined :: rest => exact .inl ⟨_, step_undefined hs, step_undefined (hstim ▸ hs)⟩
  | .driven l :: rest =>
    right
    rw [step_driven hs, step_driven (hstim ▸ hs), ← hp]
    rcases hdes.desCycle_alike s.params l.desCtrl with ⟨f, hf, hf'⟩ | ⟨x, x', hx, hx', hxx⟩
    · rw [hf, hf']
      exact .inl ⟨f, rfl, rfl⟩
    · rw [hx, hx']
      rcases hacc.accCycle_alike s.params.nAcc l.accCtrl with ⟨f, hf, hf'⟩ | ⟨y, y', hy, hy', hyy⟩
      · rw [hf, hf']
        exact .inl ⟨f, rfl, rfl⟩
      · rw [hy, hy']
        exact .inr ⟨_, _, rfl, rfl, afterCycle_sameVisible h l rest hxx hyy⟩

/-- Settles O50: related machines step alike. -/
theorem cellsBeyondFilledAreUnobservable : Obligations.CellsBeyondFilledAreUnobservable := by
  intro s s' h
  rcases step_alike h with ⟨r, hr, hr'⟩ | ⟨f, hf, hf'⟩ | ⟨t, t', ht, ht', hvis⟩
  · simp [hr, hr']
  · simp [hf, hf']
  · simp [ht, ht', hvis]

end Sys2Proof.Machine
end

section
/-! PROOFS. The operations of one cycle act on the state before the edge, 20_memory.md R49, and reads have no side
effect, R46. -/

namespace Sys2Proof.Machine

/-- Settles O9: in the closed form of a cycle each block's part is what that block's own word gives on the state before
the edge. -/
theorem everyOperationSeesThePreEdgeState : Obligations.EveryOperationSeesThePreEdgeState := by
  intro s t l rest hs h
  obtain ⟨m, rest', x, y, hm, hx, hy, rfl⟩ := step_cases h
  rw [hs] at hm
  cases hm
  exact ⟨⟨_, exec_decodeDesCtrl_next hx, rfl, rfl, rfl⟩, ⟨_, exec_rd _ _ s, rfl, rfl⟩,
    ⟨_, exec_decodeAccCtrl_next hy, rfl, rfl, rfl⟩, ⟨_, exec_accRd _ s, rfl, rfl⟩, rfl, rfl⟩

@[simp] theorem State.driveDesRd_driveDesRd (s : State) (r r' : Bool × Byte) :
    (s.driveDesRd r).driveDesRd r' = s.driveDesRd r' := rfl

@[simp] theorem State.driveAccRd_driveAccRd (s : State) (r r' : Bool × Byte) :
    (s.driveAccRd r).driveAccRd r' = s.driveAccRd r' := rfl

/-- Settles O34: a read drives its own two outputs alone, and the registers it reads from are those it left. -/
theorem readsHaveNoSideEffect : Obligations.ReadsHaveNoSideEffect := by
  intro f i s
  refine ⟨⟨_, exec_rd f i s, rfl, rfl, rfl, rfl, rfl, ?_⟩, ⟨_, exec_accRd i s, rfl, rfl, rfl, rfl, rfl, ?_⟩⟩
  · rw [exec_rd, State.driveDesRd_driveDesRd, State.driveDesRd_params, State.driveDesRd_des]
  · rw [exec_accRd, State.driveAccRd_driveAccRd, State.driveAccRd_params, State.driveAccRd_acc]

end Sys2Proof.Machine
end

section
/-! SUPPORT. When one operation stops, and what it keeps when it does not: an operation stops only for want of a cell
(log entry 8), and the invariants leave a cell for every value byte (20_memory.md R44). -/

namespace Sys2Proof.Machine

/-- A value byte is due, and the storage space has no cell at its index. -/
def LacksCell (n : Capacity) (a : Accumulator) : Prop :=
  a.lenSet = true ∧ a.filled ≠ a.len.toNat ∧ n.val ≤ a.filled

theorem not_lacksCell_of_accInv {n : Capacity} {a : Accumulator} (ha : AccInv n a) : ¬ LacksCell n a := by
  rintro ⟨-, hne, hn⟩
  obtain ⟨hfilled, hlen⟩ := accInv_bounds ha
  omega

/-- An `ADV` stops only where the feed it makes stops (41_frame_deserializer.md R79). -/
theorem advanceDes_error_cases {p : Params} {b : Byte} {d : Deserializer} {f : Fault}
    (h : advanceDes p b d = .error f) :
    ∃ X, d.tag = awaitingTag X ∧ feedAcc (capacityOf p X) b (accOf d X) = .error f := by
  cases hX : activeField d.tag with
  | none =>
    rw [advanceDes_inactive hX] at h
    cases h
  | some X =>
    refine ⟨X, activeField_eq_some.1 hX, ?_⟩
    cases hf : feedAcc (capacityOf p X) b (accOf d X) with
    | ok r =>
      rw [advanceDes_active hX hf] at h
      cases h
    | error g =>
      rw [advanceDes_error hX hf] at h
      cases h
      rfl

theorem exec_adv_of_error {b : Byte} {s : State} {f : Fault} (h : advanceDes s.params b s.des = .error f) :
    exec (.adv b) s = .fault f := by
  simp [exec, execAdv, h]

theorem exec_accFeed_of_error {b : Byte} {s : State} {f : Fault} (h : feedAcc s.params.nAcc b s.acc = .error f) :
    exec (.accFeed b) s = .fault f := by
  simp [exec, execAccFeed, h]

theorem exec_accFeed_completes_or_lacks_cell (b : Byte) (s : State) :
    (∃ t, exec (.accFeed b) s = .next t) ∨
    (LacksCell s.params.nAcc s.acc ∧ exec (.accFeed b) s = .fault (.noSuchCell s.acc.filled)) := by
  cases hf : feedAcc s.params.nAcc b s.acc with
  | ok r => exact .inl ⟨_, exec_accFeed_of_ok hf⟩
  | error f =>
    obtain ⟨hl, hne, hn, rfl⟩ := feedAcc_error hf
    exact .inr ⟨⟨hl, hne, hn⟩, exec_accFeed_of_error hf⟩

theorem exec_adv_completes_or_lacks_cell (b : Byte) (s : State) :
    (∃ t, exec (.adv b) s = .next t) ∨
    ∃ X, s.des.tag = awaitingTag X ∧ LacksCell (capacityOf s.params X) (accOf s.des X) ∧
      exec (.adv b) s = .fault (.noSuchCell (accOf s.des X).filled) := by
  cases hd : advanceDes s.params b s.des with
  | ok r => exact .inl ⟨_, exec_adv_of_ok hd⟩
  | error f =>
    obtain ⟨X, hX, hf⟩ := advanceDes_error_cases hd
    obtain ⟨hl, hne, hn, rfl⟩ := feedAcc_error hf
    exact .inr ⟨X, hX, ⟨hl, hne, hn⟩, exec_adv_of_error hd⟩

/-- Everything that can stop an operation, and where. -/
theorem exec_completes_or_lacks_cell (i : Instr) (s : State) :
    (∃ t, exec i s = .next t) ∨
    (∃ b, i = .accFeed b ∧ LacksCell s.params.nAcc s.acc ∧ exec i s = .fault (.noSuchCell s.acc.filled)) ∨
    (∃ b X, i = .adv b ∧ s.des.tag = awaitingTag X ∧ LacksCell (capacityOf s.params X) (accOf s.des X) ∧
      exec i s = .fault (.noSuchCell (accOf s.des X).filled)) := by
  cases i with
  | adv b =>
    rcases exec_adv_completes_or_lacks_cell b s with ht | ⟨X, hX⟩
    · exact .inl ht
    · exact .inr (.inr ⟨b, X, rfl, hX⟩)
  | accFeed b =>
    rcases exec_accFeed_completes_or_lacks_cell b s with ht | hacc
    · exact .inl ht
    · exact .inr (.inl ⟨b, rfl, hacc⟩)
  | rst => exact .inl ⟨_, exec_rst s⟩
  | idle => exact .inl ⟨_, exec_idle s⟩
  | rd f j => exact .inl ⟨_, exec_rd f j s⟩
  | accClear => exact .inl ⟨_, exec_accClear s⟩
  | accIdle => exact .inl ⟨_, exec_accIdle s⟩
  | accRd j => exact .inl ⟨_, exec_accRd j s⟩

theorem exec_completes_of_inv {s : State} (hi : s.Inv) (i : Instr) : ∃ t, exec i s = .next t := by
  rcases exec_completes_or_lacks_cell i s with ht | ⟨b, -, hlack, -⟩ | ⟨b, X, -, -, hlack, -⟩
  · exact ht
  · exact absurd hlack (not_lacksCell_of_accInv (inv_iff.1 hi).2)
  · exact absurd hlack (not_lacksCell_of_accInv (accInv_accOf hi X))

/-- The capacities are no registers (10_state.md R30): no operation writes them. -/
theorem exec_keeps_params {i : Instr} {s t : State} (h : exec i s = .next t) : t.params = s.params := by
  cases i with
  | adv b =>
    obtain ⟨d, g, -, rfl⟩ := exec_adv_next h
    rfl
  | accFeed b =>
    obtain ⟨a, o, -, rfl⟩ := exec_accFeed_next h
    rfl
  | rst => cases h; rfl
  | idle => cases h; rfl
  | rd f j => cases h; rfl
  | accClear => cases h; rfl
  | accIdle => cases h; rfl
  | accRd j => cases h; rfl

theorem AccChange.keeps_accInv {n : Capacity} {resets : Prop} {feeds : Byte → Prop} {a a' : Accumulator}
    (h : AccChange n resets feeds a a') (ha : AccInv n a) : AccInv n a' := by
  cases h with
  | kept => exact ha
  | reset => exact accInv_empty n
  | fed _ hf => exact feedAcc_keeps_accInv ha hf

theorem exec_keeps_desInv {i : Instr} {s t : State} (hi : s.Inv) (h : exec i s = .next t) :
    DesInv s.params t.des := by
  rcases exec_des_cases h with hd | ⟨-, hd⟩ | ⟨b, g, -, hd⟩
  · rw [hd]
    exact (inv_iff.1 hi).1
  · rw [hd]
    exact desInv_fresh _
  · exact advanceDes_keeps_desInv hi hd

theorem exec_keeps_inv {i : Instr} {s t : State} (hi : s.Inv) (h : exec i s = .next t) : t.Inv := by
  rw [inv_iff, exec_keeps_params h]
  exact ⟨exec_keeps_desInv hi h, (exec_acc_change h).keeps_accInv (inv_iff.1 hi).2⟩

end Sys2Proof.Machine
end

section
/-! PROOFS. When an operation stops, 20_memory.md R44. -/

namespace Sys2Proof.Machine

/-- Settles O48: a feed stops only for want of a cell, which the invariants exclude, and every operation keeps them. -/
theorem operationsStopOnlyForWantOfACell : Obligations.OperationsStopOnlyForWantOfACell := by
  intro i s
  refine ⟨?_, fun hi => ?_⟩
  · simpa only [LacksCell, and_assoc] using exec_completes_or_lacks_cell i s
  · obtain ⟨t, ht⟩ := exec_completes_of_inv hi i
    exact ⟨t, ht, exec_keeps_inv hi ht⟩

end Sys2Proof.Machine
end

section
/-! SUPPORT. The port words as numbers: a control word's two select bits and byte (30_encoding.md R57, R59), a DES_RD
word's field code and index (R58), and what the decoder answers on them. -/

namespace Sys2Proof

theorem toNat_ctrlWord (r v : Bool) (b : Byte) :
    (ctrlWord r v b).toNat = 0x200 * r.toNat + 0x100 * v.toNat + b.toNat := by
  have hlow : (BitVec.ofBool v ++ b).toNat = 0x100 * v.toNat + b.toNat := by
    rw [BitVec.toNat_append, BitVec.toNat_ofBool, ← Nat.shiftLeft_add_eq_or_of_lt b.isLt, Nat.shiftLeft_eq, Nat.mul_comm]
  rw [ctrlWord, BitVec.toNat_append, BitVec.toNat_ofBool, ← Nat.shiftLeft_add_eq_or_of_lt (BitVec.isLt _),
    Nat.shiftLeft_eq, Nat.mul_comm, hlow, Nat.add_assoc]

theorem toNat_rdWord (f : FieldSel) (i : Byte) : (rdWord f i).toNat = 0x100 * f.code.toNat + i.toNat := by
  rw [rdWord, BitVec.toNat_append, ← Nat.shiftLeft_add_eq_or_of_lt i.isLt, Nat.shiftLeft_eq, Nat.mul_comm]

/-- A control word is the one made of its parts. -/
theorem ctrlWord_parts (w : Word10) : ctrlWord (ctrlRst w) (ctrlValid w) (lowByte w) = w := by
  apply BitVec.eq_of_toNat_eq
  have hw := w.isLt
  have hr : (ctrlRst w).toNat = w.toNat / 2 ^ 9 % 2 := Nat.toNat_testBit ..
  have hv : (ctrlValid w).toNat = w.toNat / 2 ^ 8 % 2 := Nat.toNat_testBit ..
  have hb : (lowByte w).toNat = w.toNat % 2 ^ 8 := rfl
  rw [toNat_ctrlWord]
  omega

/-- Masking with both select bits of a control word leaves their values. -/
theorem toNat_and_selectBits (w : Word10) :
    w.toNat &&& 0x300 = 0x200 * (ctrlRst w).toNat + 0x100 * (ctrlValid w).toNat := by
  have h : ∀ r v (b : Byte), (ctrlWord r v b).toNat &&& 0x300 = 0x200 * r.toNat + 0x100 * v.toNat := by
    intro r v
    cases r <;> cases v <;> decide
  rw [← h _ _ (lowByte w), ctrlWord_parts]

theorem toNat_and_rstBit (w : Word10) : w.toNat &&& 0x200 = 0x200 * (ctrlRst w).toNat := by
  have h : ∀ r v (b : Byte), (ctrlWord r v b).toNat &&& 0x200 = 0x200 * r.toNat := by
    intro r v
    cases r <;> cases v <;> decide
  rw [← h _ (ctrlValid w) (lowByte w), ctrlWord_parts]

/-! ### Decoding a word made of its parts -/

theorem decode_desCtrl_ctrlWord (r v : Bool) (b : Byte) :
    decode .desCtrl (ctrlWord r v b).toNat = .ok (if r then .rst else if v then .adv b else .idle) := by
  rw [decode_desCtrl_toNat, decodeDesCtrl, ctrlRst_ctrlWord, ctrlValid_ctrlWord, lowByte_ctrlWord]

theorem decode_accCtrl_ctrlWord (r v : Bool) (b : Byte) :
    decode .accCtrl (ctrlWord r v b).toNat = .ok (if r then .accClear else if v then .accFeed b else .accIdle) := by
  rw [decode_accCtrl_toNat, decodeAccCtrl, ctrlRst_ctrlWord, ctrlValid_ctrlWord, lowByte_ctrlWord]

theorem decode_desRd_rdWord (f : FieldSel) (i : Byte) : decode .desRd (rdWord f i).toNat = .ok (.rd f i) := by
  rw [decode_desRd_toNat, decodeDesRd, rdFieldBits_rdWord, lowByte_rdWord]

/-! ### Decoding a number: it is its base, a multiple of 0x100 that holds the upper bits, and a byte above it -/

theorem toNat_ofNat_sub {base w : Nat} (h : base ≤ w ∧ w < base + 0x100) :
    base + (BitVec.ofNat 8 (w - base)).toNat = w := by
  rw [BitVec.toNat_ofNat]
  omega

theorem toNat_ctrlWord_sub {w : Nat} (r v : Bool) {base : Nat} (hbase : 0x200 * r.toNat + 0x100 * v.toNat = base)
    (h : base ≤ w ∧ w < base + 0x100) : (ctrlWord r v (BitVec.ofNat 8 (w - base))).toNat = w := by
  rw [toNat_ctrlWord, hbase, toNat_ofNat_sub h]

theorem toNat_rdWord_sub {w : Nat} (f : FieldSel) {base : Nat} (hbase : 0x100 * f.code.toNat = base)
    (h : base ≤ w ∧ w < base + 0x100) : (rdWord f (BitVec.ofNat 8 (w - base))).toNat = w := by
  rw [toNat_rdWord, hbase, toNat_ofNat_sub h]

theorem decode_desCtrl_of_base {w : Nat} (r v : Bool) {base : Nat} (hbase : 0x200 * r.toNat + 0x100 * v.toNat = base)
    (h : base ≤ w ∧ w < base + 0x100) :
    decode .desCtrl w = .ok (if r then .rst else if v then .adv (BitVec.ofNat 8 (w - base)) else .idle) := by
  rw [← decode_desCtrl_ctrlWord, toNat_ctrlWord_sub r v hbase h]

theorem decode_accCtrl_of_base {w : Nat} (r v : Bool) {base : Nat} (hbase : 0x200 * r.toNat + 0x100 * v.toNat = base)
    (h : base ≤ w ∧ w < base + 0x100) :
    decode .accCtrl w = .ok (if r then .accClear else if v then .accFeed (BitVec.ofNat 8 (w - base)) else .accIdle) := by
  rw [← decode_accCtrl_ctrlWord, toNat_ctrlWord_sub r v hbase h]

theorem decode_desRd_of_base {w : Nat} (f : FieldSel) {base : Nat} (hbase : 0x100 * f.code.toNat = base)
    (h : base ≤ w ∧ w < base + 0x100) : decode .desRd w = .ok (.rd f (BitVec.ofNat 8 (w - base))) := by
  rw [← decode_desRd_rdWord, toNat_rdWord_sub f hbase h]

/-! ### Rows of the opcode table on a control port: mask and match read the two select bits -/

section
variable (f : Format) (w : Word10)

theorem covers_rstRow : Row.covers { format := f, pattern := 0x200, mask := 0x200 } w.toNat = ctrlRst w := by
  rw [Row.covers, toNat_and_rstBit]
  cases ctrlRst w <;> rfl

theorem covers_validRow :
    Row.covers { format := f, pattern := 0x100, mask := 0x300 } w.toNat = (!ctrlRst w && ctrlValid w) := by
  rw [Row.covers, toNat_and_selectBits]
  cases ctrlRst w <;> cases ctrlValid w <;> rfl

theorem covers_idleRow :
    Row.covers { format := f, pattern := 0x000, mask := 0x300 } w.toNat = (!ctrlRst w && !ctrlValid w) := by
  rw [Row.covers, toNat_and_selectBits]
  cases ctrlRst w <;> cases ctrlValid w <;> rfl

/-- A row without mask covers every word. -/
theorem covers_unmasked (x : Nat) : Row.covers { format := f, pattern := 0, mask := 0 } x = true := by
  rw [Row.covers, Nat.and_zero]
  rfl

end

theorem row_decodeDesCtrl (w : Word10) :
    (decodeDesCtrl w).row =
      if ctrlRst w then Instr.rst.row else if ctrlValid w then (Instr.adv 0).row else Instr.idle.row := by
  unfold decodeDesCtrl
  split
  · rfl
  · split <;> rfl

theorem row_decodeAccCtrl (w : Word10) :
    (decodeAccCtrl w).row =
      if ctrlRst w then Instr.accClear.row else if ctrlValid w then (Instr.accFeed 0).row else Instr.accIdle.row := by
  unfold decodeAccCtrl
  split
  · rfl
  · split <;> rfl

/-- A word that is known to decode to `j` decodes to an operation of a row exactly when `j` is of that row. -/
theorem exists_decode_row_iff {f : Format} {w : Nat} {j : Instr} (h : decode f w = .ok j) (r : Row) :
    (∃ j', decode f w = .ok j' ∧ j'.row = r) ↔ j.row = r := by
  simp only [h, Except.ok.injEq, exists_eq_left']

/-- On DES_CTRL, mask and match select as the decoder does (R64). -/
theorem covers_desCtrl_iff (w : Word10) {i : Instr} (hi : i.format = .desCtrl) :
    i.row.covers w.toNat = true ↔ ∃ j, decode .desCtrl w.toNat = .ok j ∧ j.row = i.row := by
  rw [exists_decode_row_iff (decode_desCtrl_toNat w), row_decodeDesCtrl]
  cases i <;> cases hi
  all_goals
    simp only [Instr.row, covers_rstRow, covers_validRow, covers_idleRow]
    cases ctrlRst w <;> cases ctrlValid w <;> decide

/-- On ACC_CTRL, mask and match select as the decoder does (R65). -/
theorem covers_accCtrl_iff (w : Word10) {i : Instr} (hi : i.format = .accCtrl) :
    i.row.covers w.toNat = true ↔ ∃ j, decode .accCtrl w.toNat = .ok j ∧ j.row = i.row := by
  rw [exists_decode_row_iff (decode_accCtrl_toNat w), row_decodeAccCtrl]
  cases i <;> cases hi
  all_goals
    simp only [Instr.row, covers_rstRow, covers_validRow, covers_idleRow]
    cases ctrlRst w <;> cases ctrlValid w <;> decide

end Sys2Proof
end

section
/-! PROOFS. Decoding and the encoding tables, 30_encoding.md R57 to R65. -/

namespace Sys2Proof.Machine

/-- Settles O1: each canonical word is made of parts that the decoder reads back. -/
theorem decodeOfEncodeIsTheOperation : Obligations.DecodeOfEncodeIsTheOperation := by
  intro i _
  cases i with
  | adv b => exact decode_desCtrl_ctrlWord false true b
  | rst => exact decode_desCtrl_ctrlWord true false 0
  | idle => exact decode_desCtrl_ctrlWord false false 0
  | rd f j => exact decode_desRd_rdWord f j
  | accFeed b => exact decode_accCtrl_ctrlWord false true b
  | accClear => exact decode_accCtrl_ctrlWord true false 0
  | accIdle => exact decode_accCtrl_ctrlWord false false 0
  | accRd j => exact decode_accRd_toNat j

/-- Settles O2: a number below 0x400 is a base, which holds the upper two bits, and a byte above it. -/
theorem everyDeserializerWordDecodes : Obligations.EveryDeserializerWordDecodes := by
  intro w
  refine ⟨fun h => ?_, fun h => ?_, fun h => ?_, fun h => ?_, fun h => ?_, fun h => ?_, fun h => ?_, fun h => ?_⟩
  · rcases Nat.lt_or_ge w 0x300 with hlt | hge
    · exact decode_desCtrl_of_base true false rfl ⟨h.1, hlt⟩
    · exact decode_desCtrl_of_base true true rfl ⟨hge, h.2⟩
  · exact decode_desCtrl_of_base false true rfl h
  · exact decode_desCtrl_of_base false false rfl ⟨w.zero_le, h⟩
  · exact decode_desRd_of_base .a rfl ⟨w.zero_le, h⟩
  · exact decode_desRd_of_base .b rfl h
  · exact decode_desRd_of_base .c rfl h
  · exact decode_desRd_of_base .reserved rfl h
  · exact ⟨decode_of_le h, decode_of_le h⟩

/-- Settles O3, as O2; an ACC_RD word is its index. -/
theorem everyAccumulatorWordDecodes : Obligations.EveryAccumulatorWordDecodes := by
  intro w
  refine ⟨fun h => ?_, fun h => ?_, fun h => ?_, fun h => ?_, fun h => ?_, fun h => ?_⟩
  · rcases Nat.lt_or_ge w 0x300 with hlt | hge
    · exact decode_accCtrl_of_base true false rfl ⟨h.1, hlt⟩
    · exact decode_accCtrl_of_base true true rfl ⟨hge, h.2⟩
  · exact decode_accCtrl_of_base false true rfl h
  · exact decode_accCtrl_of_base false false rfl ⟨w.zero_le, h⟩
  · exact decode_of_lt h
  · exact decode_of_le h
  · exact decode_of_le h

/-- Settles O4: on a control port both sides read the two select bits; a read port has one row, which covers every
word. -/
theorem rowCoversExactlyItsWords : Obligations.RowCoversExactlyItsWords := by
  intro i w hw
  obtain ⟨v, rfl⟩ : ∃ v : BitVec i.format.width, v.toNat = w := ⟨.ofNatLT w hw, rfl⟩
  cases i with
  | adv b => exact covers_desCtrl_iff v rfl
  | rst => exact covers_desCtrl_iff v rfl
  | idle => exact covers_desCtrl_iff v rfl
  | rd f j => exact iff_of_true (covers_unmasked _ _) ⟨_, decode_desRd_toNat v, rfl⟩
  | accFeed b => exact covers_accCtrl_iff v rfl
  | accClear => exact covers_accCtrl_iff v rfl
  | accIdle => exact covers_accCtrl_iff v rfl
  | accRd j => exact iff_of_true (covers_unmasked _ _) ⟨_, decode_accRd_toNat v, rfl⟩

/-- Settles O5: eleven closed words, each evaluated. -/
theorem writtenOutWordsDecode : Obligations.WrittenOutWordsDecode := by
  refine ⟨?_, ?_, ?_, ?_, ?_, ?_, ?_, ?_, ?_, ?_, ?_⟩ <;> rfl

/-- Settles O6: the tables row by row, and the eight register values and tags read back. -/
theorem codeTables : Obligations.CodeTables := by
  refine ⟨⟨rfl, rfl, rfl, rfl, rfl⟩, by decide, fun t => ?_, ⟨rfl, rfl, rfl, rfl⟩, rfl, rfl, rfl, rfl⟩
  cases t <;> rfl

end Sys2Proof.Machine
end

section
/-! PROOFS. The expansion of FRAME, 30_encoding.md R71. -/

namespace Sys2Proof.Machine

theorem length_frameBytes (as bs cs : List Byte) :
    (frameBytes as bs cs).length = 3 + as.length + bs.length + cs.length := by
  simp only [frameBytes, fieldBytes, List.length_append, List.length_cons]
  omega

theorem mem_advLines {bytes : List Byte} {l : AsmLine} (h : l ∈ advLines bytes) : ∃ b, l = .des (.adv b) := by
  obtain ⟨b, -, rfl⟩ := List.mem_map.1 h
  exact ⟨b, rfl⟩

/-- The bound of R71 on a FRAME's three lists. -/
theorem wellFormed_frame_iff {as bs cs : List Byte} :
    (Pseudo.frame as bs cs).wellFormed = true ↔ as.length ≤ 255 ∧ bs.length ≤ 255 ∧ cs.length ≤ 255 := by
  simp only [Pseudo.wellFormed, Bool.and_eq_true, decide_eq_true_eq, and_assoc]

/-- Settles O7: a FRAME within the bound of R71 is one ADV line a byte, and one beyond it is not well formed. -/
theorem frameExpansionLength : Obligations.FrameExpansionLength := by
  refine fun as bs cs => ⟨fun h => ⟨advLines (frameBytes as bs cs), ?_, ?_, fun l => mem_advLines⟩, fun h => ?_⟩
  · exact if_pos (wellFormed_frame_iff.2 h)
  · rw [advLines, List.length_map, length_frameBytes]
  · refine if_neg fun hwf => ?_
    obtain ⟨ha, hb, hc⟩ := wellFormed_frame_iff.1 hwf
    omega

end Sys2Proof.Machine
end

section
/-! SUPPORT. The step as a run of a line's operations, and the wiring of the deserializer's accumulators: what a
DES_CTRL word does to each is what an ACC_CTRL word made from it does to a stand-alone one (30_encoding.md R56). -/

namespace Sys2Proof.Machine

/-! ### Operations in turn -/

section
variable {i : Instr} {s t : State} {rest : List Instr}

theorem runOps_next (h : exec i s = .next t) : runOps (i :: rest) s = runOps rest t := by
  rw [runOps, h]

theorem runOps_fault {f : Fault} (h : exec i s = .fault f) : runOps (i :: rest) s = .fault f := by
  rw [runOps, h]

end

/-- A step with a driven line takes it, drives the status outputs and performs the line's operations. -/
theorem step_eq_runOps {s : State} {l : Line} {rest : List CycleInput} (h : s.stimulus = .driven l :: rest) :
    step s = runOps (cycleOps l) { s with stimulus := rest }.driveStatus := by
  rw [step, runCycle, fetchLine, h]

/-! ### One cycle of a stand-alone accumulator, by its word -/

section
variable {n : Capacity} {w : Word10} {a : Accumulator}

theorem accCycle_rst (hr : ctrlRst w = true) : accCycle n w a = .ok (.empty, false, 0b00#2) := if_pos hr

theorem accCycle_idle (hr : ctrlRst w = false) (hv : ctrlValid w = false) :
    accCycle n w a = .ok (a, false, 0b00#2) := by
  simp [accCycle, hr, hv]

theorem accCycle_feed {a' : Accumulator} {o : Report} (hr : ctrlRst w = false) (hv : ctrlValid w = true)
    (hf : feedAcc n (lowByte w) a = .ok (a', o)) : accCycle n w a = .ok (a', true, reportCode o) := by
  simp [accCycle, hr, hv, hf]

end

/-! ### What an `ADV` does to the active accumulator and to the others (41_frame_deserializer.md R81) -/

section
variable {p : Params} {b : Byte} {d d' : Deserializer} {g : Signal} {X : Field}

theorem advanceDes_feeds_active (h : advanceDes p b d = .ok (d', g)) (hX : d.tag = awaitingTag X) :
    ∃ o, feedAcc (capacityOf p X) b (accOf d X) = .ok (accOf d' X, o) := by
  have hactive := activeField_eq_some.2 hX
  rcases advanceDes_cases h with ⟨hnone, -, -⟩ | ⟨Y, a, o, hY, hf, hr⟩
  · rw [hactive] at hnone
    cases hnone
  · rw [hactive] at hY
    cases hY
    obtain rfl : (reactTo X o (withAcc d X a)).1 = d' := congrArg Prod.fst hr
    rw [accOf_reactTo, accOf_withAcc_same]
    exact ⟨o, hf⟩

theorem advanceDes_keeps_inactive (h : advanceDes p b d = .ok (d', g)) (hX : d.tag ≠ awaitingTag X) :
    accOf d' X = accOf d X := by
  rcases advanceDes_cases h with ⟨-, rfl, -⟩ | ⟨Y, a, o, hY, -, hr⟩
  · rfl
  · obtain rfl : (reactTo Y o (withAcc d Y a)).1 = d' := congrArg Prod.fst hr
    rw [accOf_reactTo]
    refine accOf_withAcc_other _ _ fun hXY => hX ?_
    rw [hXY]
    exact activeField_eq_some.1 hY

end

/-! ### The wiring -/

/-- The ACC_CTRL word that the deserializer's wiring drives on accumulator `X`:
`{rst, in_valid AND NOT rst AND (tag == Awaiting<X>), in_byte}` (30_encoding.md R56). -/
def wiredWord (w : Word10) (t : Tag) (X : Field) : Word10 :=
  ctrlWord (ctrlRst w) (ctrlValid w && !ctrlRst w && decide (t = awaitingTag X)) (lowByte w)

@[simp] theorem ctrlRst_wiredWord (w : Word10) (t : Tag) (X : Field) : ctrlRst (wiredWord w t X) = ctrlRst w :=
  ctrlRst_ctrlWord ..

@[simp] theorem ctrlValid_wiredWord (w : Word10) (t : Tag) (X : Field) :
    ctrlValid (wiredWord w t X) = (ctrlValid w && !ctrlRst w && decide (t = awaitingTag X)) :=
  ctrlValid_ctrlWord ..

@[simp] theorem lowByte_wiredWord (w : Word10) (t : Tag) (X : Field) : lowByte (wiredWord w t X) = lowByte w :=
  lowByte_ctrlWord ..

/-- A DES_CTRL word does to each accumulator what its wired word does to a stand-alone one. -/
theorem desCycle_is_wired {p : Params} {w : Word10} {d : Deserializer} {x : Deserializer × Bool × BitVec 2}
    (h : desCycle p w d = .ok x) (X : Field) :
    ∃ out, accCycle (capacityOf p X) (wiredWord w d.tag X) (accOf d X) = .ok (accOf x.1 X, out) := by
  rcases desCycle_cases h with ⟨hr, rfl⟩ | ⟨hr, hv, d', g, hd, rfl⟩ | ⟨hr, hv, rfl⟩
  · rw [accOf_fresh]
    exact ⟨_, accCycle_rst (by simp [hr])⟩
  · by_cases hX : d.tag = awaitingTag X
    · obtain ⟨o, hf⟩ := advanceDes_feeds_active hd hX
      exact ⟨_, accCycle_feed (by simp [hr]) (by simp [hr, hv, hX]) (by rwa [lowByte_wiredWord])⟩
    · rw [advanceDes_keeps_inactive hd hX]
      exact ⟨_, accCycle_idle (by simp [hr]) (by simp [hX])⟩
  · exact ⟨_, accCycle_idle (by simp [hr]) (by simp [hv])⟩

/-! ### Completion in a good state (20_memory.md R44) -/

theorem desCycle_completes {s : State} (hi : s.Inv) (w : Word10) : ∃ x, desCycle s.params w s.des = .ok x := by
  cases h : desCycle s.params w s.des with
  | ok x => exact ⟨x, rfl⟩
  | error f =>
    obtain ⟨t, ht⟩ := exec_completes_of_inv hi (decodeDesCtrl w)
    rw [exec_decodeDesCtrl, h] at ht
    cases ht

theorem accCycle_completes {n : Capacity} {a : Accumulator} (ha : AccInv n a) (w : Word10) :
    ∃ y, accCycle n w a = .ok y := by
  cases hr : ctrlRst w with
  | true => exact ⟨_, accCycle_rst hr⟩
  | false =>
    cases hv : ctrlValid w with
    | false => exact ⟨_, accCycle_idle hr hv⟩
    | true =>
      obtain ⟨a', o, hf⟩ := feedAcc_completes ha
      exact ⟨_, accCycle_feed hr hv hf⟩

end Sys2Proof.Machine
end

section
/-! PROOFS. The step and the wiring, 30_encoding.md R54, R56 and R69. -/

namespace Sys2Proof.Machine

/-- Settles O44: what the line's DES_CTRL word does to accumulator X is what the wired word does to a stand-alone one. -/
theorem deserializerIsThreeWiredAccumulators : Obligations.DeserializerIsThreeWiredAccumulators := by
  intro s t l rest hs h X
  obtain ⟨m, rest', x, y, hm, hx, -, rfl⟩ := step_cases h
  rw [hs] at hm
  cases hm
  obtain ⟨out, hout⟩ := desCycle_is_wired hx X
  exact ⟨_, exec_decodeAccCtrl_next hout, rfl⟩

/-- Settles O47: each block's own word completes on its own registers. -/
theorem everyLineCompletesInAGoodState : Obligations.EveryLineCompletesInAGoodState := by
  intro s l rest hi hs
  obtain ⟨x, hx⟩ := desCycle_completes hi l.desCtrl
  obtain ⟨y, hy⟩ := accCycle_completes (inv_iff.1 hi).2 l.accCtrl
  exact ⟨afterCycle s l rest x y, by rw [step_driven hs, hx, hy]⟩

/-- Settles O8: the words decode to the operations of `cycleOps`, which the step runs one by one. -/
theorem stepRunsTheDecodedOperations : Obligations.StepRunsTheDecodedOperations := by
  intro s l rest r q c a hs hr hq hc ha s0
  rw [decode_desRd_toNat, Except.ok.injEq] at hr
  rw [decode_accRd_toNat, Except.ok.injEq] at hq
  rw [decode_desCtrl_toNat, Except.ok.injEq] at hc
  rw [decode_accCtrl_toNat, Except.ok.injEq] at ha
  have hstep : step s = runOps [r, q, c, a] s0 := by
    rw [step_eq_runOps hs, cycleOps, hr, hq, hc, ha]
    rfl
  refine ⟨fun s1 s2 s3 s4 h1 h2 h3 h4 => ?_, fun s1 s2 f h1 h2 h3 => ?_, fun s1 s2 s3 f h1 h2 h3 h4 => ?_⟩
  · rw [hstep, runOps_next h1, runOps_next h2, runOps_next h3, runOps_next h4, runOps]
  · rw [hstep, runOps_next h1, runOps_next h2, runOps_fault h3]
  · rw [hstep, runOps_next h1, runOps_next h2, runOps_next h3, runOps_fault h4]

/-- Settles O11: read off the closed form of a cycle. -/
theorem stepTakesOneLineAndKeepsTheParameters : Obligations.StepTakesOneLineAndKeepsTheParameters := by
  intro s t h
  obtain ⟨l, rest, x, y, hs, -, -, rfl⟩ := step_cases h
  exact ⟨rfl, rfl, l, hs⟩

end Sys2Proof.Machine
end

section
/-! SUPPORT. One ACC.FEED in the terms of its statements: the codes of the reports, the completion predicate after a
feed, the cells it leaves, and which data it writes (40_field_accumulator.md R72, R73). -/

namespace Sys2Proof.Machine

theorem reportCode_eq_fieldComplete {o : Report} : reportCode o = 0b01#2 ↔ o = .fieldComplete := by
  cases o <;> decide

/-- An outcome code that says the byte was taken: NeedsMore or FieldComplete (30_encoding.md R62). -/
def AcceptedCode (c : BitVec 2) : Prop := c = 0b00#2 ∨ c = 0b01#2

/-- An outcome code that says the byte was not taken: LengthInvalid or Overfeed (R62). -/
def RefusedCode (c : BitVec 2) : Prop := c = 0b10#2 ∨ c = 0b11#2

theorem AcceptedCode.not_refused {c : BitVec 2} (h : AcceptedCode c) : ¬ RefusedCode c := by
  rcases h with rfl | rfl <;> simp [RefusedCode]

theorem acceptedCode_lengthReport (b : Byte) : AcceptedCode (reportCode (lengthReport b)) := by
  rw [reportCode_lengthReport]
  split
  · exact .inr rfl
  · exact .inl rfl

theorem acceptedCode_valueReport (f : Nat) (l : Byte) : AcceptedCode (reportCode (valueReport f l)) := by
  rw [reportCode_valueReport]
  split
  · exact .inr rfl
  · exact .inl rfl

section
variable {n : Capacity} {b : Byte} {a a' : Accumulator} {o : Report}

/-- Only a reset clears `len_set` (10_state.md R17). -/
theorem feedAcc_keeps_lenSet (h : feedAcc n b a = .ok (a', o)) (hl : a.lenSet = true) : a'.lenSet = true := by
  rcases feedAcc_cases h with ⟨-, -, rfl, -⟩ | ⟨-, -, rfl, -⟩ | ⟨-, -, rfl, -⟩ | ⟨-, -, -, rfl, -⟩
  · exact hl
  · rfl
  · exact hl
  · exact hl

/-- A complete accumulator takes no byte, so it stays complete (60_exceptions.md R101). -/
theorem feedAcc_keeps_complete (h : feedAcc n b a = .ok (a', o)) (hc : isComplete a = true) :
    isComplete a' = true := by
  obtain ⟨hl, hf⟩ := isComplete_iff.1 hc
  rw [feedAcc_overfeed hl hf] at h
  cases h
  exact hc

/-- FieldComplete is the report of the byte that completes the field. -/
theorem feedAcc_complete_iff (ha : AccInv n a) (hc : isComplete a = false) (h : feedAcc n b a = .ok (a', o)) :
    isComplete a' = true ↔ o = .fieldComplete := by
  obtain ⟨-, hover, hfull, hmore, hrej⟩ := feedAcc_inv ha hc h
  cases o with
  | fieldComplete => simp [hfull rfl]
  | needsMore => simp [hmore rfl]
  | lengthInvalid =>
    obtain ⟨rfl, -⟩ := hrej rfl
    simp [hc]
  | overfeed => exact absurd rfl hover

/-- Every cell reads as before but the one a value byte is stored to (20_memory.md R45). -/
theorem feedAcc_readCell (h : feedAcc n b a = .ok (a', o)) (j : Nat) :
    readCell a'.storage j =
      if a.lenSet = true ∧ isComplete a = false ∧ j = a.filled then b else readCell a.storage j := by
  rcases feedAcc_cases h with ⟨hl, -, rfl, -⟩ | ⟨hl, -, rfl, -⟩ | ⟨hl, hf, rfl, -⟩ | ⟨hl, hf, -, rfl, -⟩
  · simp [hl]
  · simp [hl, acceptLength]
  · simp [isComplete_iff.2 ⟨hl, hf⟩]
  · have hc : isComplete a = false := isComplete_eq_false.2 fun _ => hf
    by_cases hj : j = a.filled
    · simp [hl, hc, hj]
    · simp [hj, readCell_writeCell_other]

/-- An accepted byte writes one datum: the length with its flag, or one cell with the counter (R73). -/
theorem feedAcc_accepted_writes_one (h : feedAcc n b a = .ok (a', o)) (ho : AcceptedCode (reportCode o)) :
    (a.lenSet = false ∧ a' = acceptLength b a) ∨
    (a.lenSet = true ∧
      a' = { a with storage := writeCell a.storage a.filled b, filled := a.filled + 1 }) := by
  rcases feedAcc_cases h with ⟨-, -, -, rfl⟩ | ⟨hl, -, ha, -⟩ | ⟨-, -, -, rfl⟩ | ⟨hl, -, -, ha, -⟩
  · exact absurd (.inl rfl) ho.not_refused
  · exact .inl ⟨hl, ha⟩
  · exact absurd (.inr rfl) ho.not_refused
  · exact .inr ⟨hl, ha⟩

/-- A byte reported as LengthInvalid or Overfeed writes nothing (R73). -/
theorem feedAcc_refused_writes_nothing (h : feedAcc n b a = .ok (a', o)) (ho : RefusedCode (reportCode o)) :
    a' = a := by
  rcases feedAcc_cases h with ⟨-, -, ha, -⟩ | ⟨-, -, -, rfl⟩ | ⟨-, -, ha, -⟩ | ⟨-, -, -, -, rfl⟩
  · exact ha
  · exact absurd ho (acceptedCode_lengthReport b).not_refused
  · exact ha
  · exact absurd ho (acceptedCode_valueReport _ _).not_refused

end

end Sys2Proof.Machine
end

section
/-! PROOFS. The operations of the stand-alone accumulator, 40_field_accumulator.md R72 to R76. -/

namespace Sys2Proof.Machine

/-- Settles O16: each case is the feed of that case, and the flags follow from what a feed does to them. -/
theorem accFeedFollowsItsPseudocode : Obligations.AccFeedFollowsItsPseudocode := by
  refine fun b s => ⟨fun hl hb => ?_, fun hl hb => ?_, fun hl hf => ?_, fun hl hf hn => ?_, fun t h => ?_⟩
  · exact exec_accFeed_of_ok (feedAcc_rejected hl hb)
  · rw [exec_accFeed_of_ok (feedAcc_length hl hb), ← reportCode_lengthReport]
    rfl
  · exact exec_accFeed_of_ok (feedAcc_overfeed hl hf)
  · rw [exec_accFeed_of_ok (feedAcc_value hl hf.ne (hf.trans_le hn)), ← reportCode_valueReport]
    rfl
  · obtain ⟨a, o, ha, rfl⟩ := exec_accFeed_next h
    refine ⟨feedAcc_keeps_lenSet ha, feedAcc_keeps_complete ha, fun hi hc => ?_⟩
    exact (feedAcc_complete_iff hi hc ha).trans reportCode_eq_fieldComplete.symm

/-- Settles O17: a feed drives its outcome alone, and writes at most the cell at `filled`. -/
theorem accFeedFrame : Obligations.AccFeedFrame := by
  intro b s t h
  obtain ⟨a, o, ha, rfl⟩ := exec_accFeed_next h
  exact ⟨rfl, rfl, rfl, rfl, rfl, feedAcc_readCell ha⟩

/-- Settles O18: by the report's code, a feed writes one datum or none. -/
theorem oneDatumWrittenPerAcceptedFeed : Obligations.OneDatumWrittenPerAcceptedFeed := by
  intro b s t h
  obtain ⟨a, o, ha, rfl⟩ := exec_accFeed_next h
  refine ⟨fun ho => ?_, feedAcc_refused_writes_nothing ha⟩
  rcases feedAcc_accepted_writes_one ha ho with hlength | ⟨hl, rfl⟩
  · exact .inl hlength
  · exact .inr ⟨hl, hl, rfl, rfl, readCell_writeCell_same _ _ _, fun j => readCell_writeCell_other _ b⟩

/-- Settles O19: ACC.IDLE drives its outcome alone. -/
theorem accIdleChangesNoRegister : Obligations.AccIdleChangesNoRegister := exec_accIdle

/-- Settles O20: the next registers are those of the empty accumulator, whatever they were. -/
theorem accClearEmptiesTheAccumulator : Obligations.AccClearEmptiesTheAccumulator :=
  fun s => ⟨_, exec_accClear s, rfl, rfl, rfl, readCell_nil, wf_nil, rfl, rfl, rfl, rfl, rfl, rfl⟩

/-- Settles O21: a read shows the cell inside the valid range and is invalid beyond it. -/
theorem accRdReadsTheValidRange : Obligations.AccRdReadsTheValidRange := by
  refine fun i s => ⟨fun hi hn => ?_, fun hi => ?_⟩
  · rw [exec_accRd, readAcc_valid hi hn]
    rfl
  · rw [exec_accRd, readAcc_invalid hi]
    rfl

end Sys2Proof.Machine
end

section
/-! PROOFS. A whole field, 40_field_accumulator.md R77: an induction over the value bytes, on the number of them that are
still due. -/

namespace Sys2Proof.Machine

/-- The outcome of an accepted byte after which `k` value bytes are due: FieldComplete when it was the last. -/
def outcomeDue (k : Nat) : BitVec 2 := if k = 0 then 0b01#2 else 0b00#2

/-- The outcomes of the `k` value bytes that are due. -/
def outcomesDue : Nat → List (BitVec 2)
  | 0 => []
  | k + 1 => outcomeDue k :: outcomesDue k

/-- NeedsMore for every byte but the last, and FieldComplete on the last. -/
theorem outcomeDue_cons_outcomesDue (k : Nat) :
    outcomeDue k :: outcomesDue k = List.replicate k 0b00#2 ++ [0b01#2] := by
  induction k with
  | zero => rfl
  | succ k ih =>
    rw [outcomesDue, ih, List.replicate_succ, List.cons_append]
    rfl

/-- The length is set and within the capacity, and `k` value bytes are due. -/
def ValuesDue (n : Capacity) (a : Accumulator) (k : Nat) : Prop :=
  a.lenSet = true ∧ a.filled + k = a.len.toNat ∧ a.len.toNat ≤ n.val

/-- An accepted length byte makes its number of value bytes due. -/
theorem feed_length_due {b : Byte} {s : State} (hl : s.acc.lenSet = false) (hf : s.acc.filled = 0)
    (hb : b.toNat ≤ s.params.nAcc.val) :
    ∃ t, exec (.accFeed b) s = .next t ∧ t.acc = acceptLength b s.acc ∧
      ValuesDue t.params.nAcc t.acc b.toNat ∧ t.accOut.outcome = outcomeDue b.toNat :=
  ⟨_, exec_accFeed_of_ok (feedAcc_length hl hb), rfl, ⟨rfl, by simp [acceptLength, hf], hb⟩,
    reportCode_lengthReport b⟩

/-- A value byte that is due is stored at `filled`, and leaves one fewer due. -/
theorem feed_value_due (b : Byte) {s : State} {k : Nat} (h : ValuesDue s.params.nAcc s.acc (k + 1)) :
    ∃ t, exec (.accFeed b) s = .next t ∧
      t.acc = { s.acc with storage := writeCell s.acc.storage s.acc.filled b, filled := s.acc.filled + 1 } ∧
      ValuesDue t.params.nAcc t.acc k ∧ t.accOut.outcome = outcomeDue k := by
  obtain ⟨hl, hk, hn⟩ := h
  refine ⟨_, exec_accFeed_of_ok (feedAcc_value hl (by omega) (by omega)), rfl, ⟨hl, ?_, hn⟩, ?_⟩
  · show s.acc.filled + 1 + k = s.acc.len.toNat
    omega
  · have hlast : s.acc.filled + 1 = s.acc.len.toNat ↔ k = 0 := by omega
    simp only [State.driveReport_accOut, reportCode_valueReport, hlast, outcomeDue]

theorem feedRun_cons {b : Byte} {rest : List Byte} {s t u : State} {os : List (BitVec 2)}
    (h : exec (.accFeed b) s = .next t) (hrest : feedRun rest t = some (os, u)) :
    feedRun (b :: rest) s = some (t.accOut.outcome :: os, u) := by
  simp [feedRun, h, hrest]

/-- Feeding the value bytes that are due fills the cells from `filled` on with them, and leaves the cells below it. -/
theorem feedRun_values_due (values : List Byte) {s : State} (h : ValuesDue s.params.nAcc s.acc values.length) :
    ∃ t, feedRun values s = some (outcomesDue values.length, t) ∧ t.acc.lenSet = true ∧ t.acc.len = s.acc.len ∧
      t.acc.filled = t.acc.len.toNat ∧
      (∀ j < s.acc.filled, readCell t.acc.storage j = readCell s.acc.storage j) ∧
      ∀ (k : Nat) (hk : k < values.length), readCell t.acc.storage (s.acc.filled + k) = values[k] := by
  induction values generalizing s with
  | nil =>
    obtain ⟨hl, hfull, -⟩ := h
    exact ⟨s, rfl, hl, rfl, hfull, fun _ _ => rfl, by simp⟩
  | cons b rest ih =>
    obtain ⟨t, ht, htacc, hdue, hout⟩ := feed_value_due b h
    obtain ⟨u, hu, hl, hlen, hfull, hbelow, hcells⟩ := ih hdue
    simp only [htacc] at hlen hbelow hcells
    refine ⟨u, ?_, hl, hlen, hfull, fun j hj => ?_, fun k hk => ?_⟩
    · rw [feedRun_cons ht hu, hout]
      rfl
    · rw [hbelow j (by omega), readCell_writeCell_other _ _ hj.ne]
    · cases k with
      | zero => rw [Nat.add_zero, hbelow _ (by omega), readCell_writeCell_same, List.getElem_cons_zero]
      | succ k => rw [List.getElem_cons_succ, ← hcells k (by simpa using hk), Nat.add_right_comm, Nat.add_assoc]

/-- Settles O22: the length byte makes the values due, and the run of the values takes them. -/
theorem accFeedSequenceCompletesOnTheLastByte : Obligations.AccFeedSequenceCompletesOnTheLastByte := by
  refine fun s hl hf => ⟨fun values hn => ?_, fun b hb => ?_⟩
  · have hbyte : (BitVec.ofNat 8 values.length).toNat = values.length := by
      have := s.params.nAcc.isLt
      rw [BitVec.toNat_ofNat, Nat.mod_eq_of_lt (by omega)]
    obtain ⟨t, ht, htacc, hdue, hout⟩ := feed_length_due hl hf (hbyte.trans_le hn)
    rw [hbyte] at hdue hout
    obtain ⟨u, hu, hlu, hlen, hfull, -, hcells⟩ := feedRun_values_due values hdue
    have hlength : u.acc.len.toNat = values.length := by rwa [hlen, htacc]
    refine ⟨u, ?_, hlu, hlength, hfull.trans hlength, ?_⟩
    · rw [fieldBytes, feedRun_cons ht hu, hout, outcomeDue_cons_outcomesDue]
    · simpa [htacc, acceptLength, hf] using hcells
  · exact ⟨_, exec_accFeed_of_ok (feedAcc_rejected hl hb), rfl, rfl⟩

end Sys2Proof.Machine
end

section
/-! SUPPORT. One `ADV` in the terms of its statements (41_frame_deserializer.md R79 to R82, R85): nothing but the Signal
while no field is active, else one feed of the active field and the reaction to its report. -/

namespace Sys2Proof.Machine

/-! ### No field is active -/

theorem activeField_eq_none {t : Tag} :
    activeField t = none ↔ t ∈ [Tag.complete, .error, .unused5, .unused6, .unused7] := by
  cases t <;> simp [activeField]

theorem activeField_of_terminal {t : Tag} (h : t = .complete ∨ t = .error) : activeField t = none := by
  rcases h with rfl | rfl <;> rfl

theorem activeField_of_unused {t : Tag} (h : t = .unused5 ∨ t = .unused6 ∨ t = .unused7) : activeField t = none := by
  rcases h with rfl | rfl | rfl <;> rfl

theorem exec_adv_inactive {s : State} (h : activeField s.des.tag = none) (b : Byte) :
    exec (.adv b) s = .next (s.driveSig .alreadyDone) :=
  exec_adv_of_ok (advanceDes_inactive h)

/-- While no field is active, only `RST` writes the deserializer. -/
theorem exec_keeps_inactive_des {i : Instr} {s t : State} (hs : activeField s.des.tag = none)
    (h : exec i s = .next t) (hi : i ≠ .rst) : t.des = s.des := by
  rcases exec_des_cases h with hkept | ⟨hrst, -⟩ | ⟨b, g, -, hd⟩
  · exact hkept
  · exact absurd hrst hi
  · rw [advanceDes_inactive hs, Except.ok.injEq, Prod.mk.injEq] at hd
    exact hd.1.symm

/-! ### Field `X` is active -/

theorem awaitingTag_ne_complete (X : Field) : awaitingTag X ≠ .complete := by
  cases X <;> decide

/-- The state after an `ADV` whose feed of field `X` left the registers `a` and reported `o`. -/
def State.afterFeed (s : State) (X : Field) (a : Accumulator) (o : Report) : State :=
  (s.setDes (reactTo X o (withAcc s.des X a)).1).driveSig (reactTo X o (withAcc s.des X a)).2

theorem exec_adv_active {b : Byte} {s : State} {X : Field} {a : Accumulator} {o : Report}
    (hX : s.des.tag = awaitingTag X) (hf : feedAcc (capacityOf s.params X) b (accOf s.des X) = .ok (a, o)) :
    exec (.adv b) s = .next (s.afterFeed X a o) :=
  exec_adv_of_ok (advanceDes_active (activeField_eq_some.2 hX) hf)

theorem exec_adv_active_next {b : Byte} {s t : State} {X : Field} (hX : s.des.tag = awaitingTag X)
    (h : exec (.adv b) s = .next t) :
    ∃ a o, feedAcc (capacityOf s.params X) b (accOf s.des X) = .ok (a, o) ∧ t = s.afterFeed X a o := by
  obtain ⟨d, g, hd, -⟩ := exec_adv_next h
  obtain ⟨o, hf⟩ := advanceDes_feeds_active hd hX
  refine ⟨_, o, hf, ?_⟩
  rw [exec_adv_active hX hf] at h
  cases h
  rfl

section
variable (s : State) (X : Field) (a : Accumulator) (o : Report)

theorem accOf_afterFeed_same : accOf (s.afterFeed X a o).des X = a := by
  simp [State.afterFeed]

theorem accOf_afterFeed_other {Y : Field} (h : Y ≠ X) : accOf (s.afterFeed X a o).des Y = accOf s.des Y := by
  simp [State.afterFeed, accOf_withAcc_other _ _ h]

/-- The next tag and the Signal depend on the deserializer through its tag alone (R80). -/
theorem afterFeed_congr {s s' : State} (htag : s'.des.tag = s.des.tag) :
    (s'.afterFeed X a o).des.tag = (s.afterFeed X a o).des.tag ∧
    (s'.afterFeed X a o).desOut.sig = (s.afterFeed X a o).desOut.sig := by
  cases o with
  | needsMore => simpa [State.afterFeed, reactTo] using htag
  | fieldComplete => exact ⟨rfl, rfl⟩
  | lengthInvalid => exact ⟨rfl, rfl⟩
  | overfeed => exact ⟨rfl, rfl⟩

end

/-! ### The reaction to each report -/

/-- The registers and the Signal that an `ADV` leaves behind, and nothing else (R79). -/
def State.answer (s : State) (X : Field) (a : Accumulator) (tag : Tag) (sig : BitVec 2) : State :=
  { s with
    des := { withAcc s.des X a with tag := tag }
    desOut := { s.desOut with sigValid := true, sig := sig } }

section
variable (s : State) (X : Field) (a : Accumulator)

theorem afterFeed_needsMore : s.afterFeed X a .needsMore = s.answer X a s.des.tag 0b00#2 := by
  cases X <;> rfl

theorem afterFeed_fieldComplete :
    s.afterFeed X a .fieldComplete = s.answer X a (nextTag X) (if X = .c then 0b01#2 else 0b00#2) := by
  cases X <;> rfl

theorem afterFeed_lengthInvalid : s.afterFeed X a .lengthInvalid = s.answer X a .error 0b10#2 := rfl

theorem afterFeed_overfeed : s.afterFeed X a .overfeed = s.answer X a .error 0b10#2 := rfl

end

theorem lengthReport_of_zero {b : Byte} (h : b.toNat = 0) : lengthReport b = .fieldComplete :=
  if_pos (BitVec.eq_of_toNat_eq (by simpa using h))

theorem lengthReport_of_pos {b : Byte} (h : 0 < b.toNat) : lengthReport b = .needsMore :=
  if_neg (by rintro rfl; simp at h)

theorem valueReport_of_last {f : Nat} {l : Byte} (h : f + 1 = l.toNat) : valueReport f l = .fieldComplete := if_pos h

theorem valueReport_of_lt {f : Nat} {l : Byte} (h : f + 1 < l.toNat) : valueReport f l = .needsMore := if_neg h.ne

/-- The transition table's row for an active tag is the reaction to the report (R80). -/
theorem afterFeed_of_transitionTable {s : State} {X : Field} {o : Report} {tag : Tag} {g : Signal}
    (hX : s.des.tag = awaitingTag X) (h : transitionTable (awaitingTag X) o = some (tag, g)) (a : Accumulator) :
    s.afterFeed X a o = s.answer X a tag (signalCode g) := by
  cases o with
  | needsMore =>
    rw [afterFeed_needsMore, hX]
    cases X <;> cases h <;> rfl
  | fieldComplete =>
    rw [afterFeed_fieldComplete]
    cases X <;> cases h <;> rfl
  | lengthInvalid =>
    rw [afterFeed_lengthInvalid]
    cases X <;> cases h <;> rfl
  | overfeed => cases X <;> cases h

end Sys2Proof.Machine
end

section
/-! PROOFS. `ADV`, `IDLE` and the inert states, 41_frame_deserializer.md R79 to R83, R85 and R88. -/

namespace Sys2Proof.Machine

/-- Settles O26: each case is the feed of that case and the reaction to its report. -/
theorem advFollowsItsPseudocode : Obligations.AdvFollowsItsPseudocode := by
  refine fun b s => ⟨fun h => exec_adv_inactive (activeField_eq_none.2 h) b, fun X hX => ?_⟩
  refine ⟨fun hl hb => ?_, fun hl hb => ?_, fun hl hpos hb => ?_, fun hl hf hn => ?_, fun hl hf hn => ?_,
    fun hl hf => ?_⟩
  · rw [exec_adv_active hX (feedAcc_rejected hl hb), afterFeed_lengthInvalid]
    rfl
  · rw [exec_adv_active hX (feedAcc_length hl (by omega)), lengthReport_of_zero hb, afterFeed_fieldComplete]
    rfl
  · rw [exec_adv_active hX (feedAcc_length hl hb), lengthReport_of_pos hpos, afterFeed_needsMore]
    rfl
  · rw [exec_adv_active hX (feedAcc_value hl (by omega) (by omega)), valueReport_of_lt hf, afterFeed_needsMore]
    rfl
  · rw [exec_adv_active hX (feedAcc_value hl (by omega) (by omega)), valueReport_of_last hf, afterFeed_fieldComplete]
    rfl
  · rw [exec_adv_active hX (feedAcc_overfeed hl hf), afterFeed_overfeed]
    rfl

/-- Settles O27: the table's row is the reaction to the report of the feed that the `ADV` makes. -/
theorem advFollowsTheTransitionTable : Obligations.AdvFollowsTheTransitionTable := by
  refine fun b s => ⟨fun X a o tag g hX hf htable => ?_, fun hterm => ?_⟩
  · rw [hX] at htable
    refine ⟨_, exec_adv_active hX hf, ?_⟩
    rw [afterFeed_of_transitionTable hX htable]
    exact ⟨rfl, rfl, rfl⟩
  · exact ⟨_, exec_adv_inactive (activeField_of_terminal hterm) b, rfl, rfl, rfl⟩

/-- Settles O28: an `ADV` keeps the inactive accumulators, and the active one is fed the byte. -/
theorem advFrame : Obligations.AdvFrame := by
  intro b s t h
  obtain ⟨d, g, hd, rfl⟩ := exec_adv_next h
  refine ⟨rfl, rfl, rfl, rfl, rfl, fun Y => ⟨advanceDes_keeps_inactive hd, fun j => ?_⟩⟩
  rw [State.driveSig_des, State.setDes_des]
  by_cases hY : s.des.tag = awaitingTag Y
  · obtain ⟨o, hf⟩ := advanceDes_feeds_active hd hY
    simp only [feedAcc_readCell hf, hY, true_and]
  · rw [advanceDes_keeps_inactive hd hY, if_neg fun hc => hY hc.1]

/-- Settles O29: the feed reads the capacity and the active accumulator, and the reaction reads the tag. -/
theorem advReadsOnlyTheActiveAccumulator : Obligations.AdvReadsOnlyTheActiveAccumulator := by
  intro b X s s' t hX htag hp hacc h
  obtain ⟨a, o, hf, rfl⟩ := exec_adv_active_next hX h
  rw [← hp, ← hacc] at hf
  obtain ⟨hnext, hsig⟩ := afterFeed_congr X a o htag
  refine ⟨_, exec_adv_active (htag.trans hX) hf, hnext, hsig, ?_, fun Y hY => ⟨?_, ?_⟩⟩
  · rw [accOf_afterFeed_same, accOf_afterFeed_same]
  · exact accOf_afterFeed_other _ _ _ _ hY
  · exact accOf_afterFeed_other _ _ _ _ hY

/-- Settles O30: no field is active in Complete and in Error. -/
theorem terminalStatesAreInert : Obligations.TerminalStatesAreInert := by
  intro s hterm
  have hnone := activeField_of_terminal hterm
  exact ⟨exec_adv_inactive hnone, fun i t => exec_keeps_inactive_des hnone⟩

/-- Settles O37: the active accumulator is not complete, and only a complete one reports Overfeed. -/
theorem overfeedIsUnreachableInTheDeserializer : Obligations.OverfeedIsUnreachableInTheDeserializer := by
  intro b s X hi hX
  have hc := active_not_complete hi hX
  obtain ⟨a, o, hf⟩ := feedAcc_completes (b := b) (accInv_accOf hi X)
  obtain ⟨-, hover, -⟩ := feedAcc_inv (accInv_accOf hi X) hc hf
  exact ⟨hc, a, o, hf, hover⟩

/-- Settles O32: IDLE drives its Signal outputs alone. -/
theorem idleWritesNoRegister : Obligations.IdleWritesNoRegister := exec_idle

end Sys2Proof.Machine
end

section
/-! SUPPORT. `RD` by tag and field code (41_frame_deserializer.md R86), and the lengths of a completed frame (R92). -/

namespace Sys2Proof.Machine

section
variable {p : Params} {d : Deserializer} (i : Byte)

theorem readDes_complete (h : d.tag = .complete) (X : Field) :
    readDes p (selectOf X) i d = readAcc (capacityOf p X) i (accOf d X) := by
  cases X <;> exact if_pos h

theorem readDes_not_complete (h : d.tag ≠ .complete) (f : FieldSel) : readDes p f i d = (false, 0x00#8) := by
  unfold readDes
  cases selectedField f with
  | none => rfl
  | some X => exact if_neg h

theorem readDes_reserved : readDes p .reserved i d = (false, 0x00#8) := rfl

/-- A read of a field at or beyond its `filled` is invalid, whatever the tag. -/
theorem readDes_beyond_filled {X : Field} (h : (accOf d X).filled ≤ i.toNat) :
    readDes p (selectOf X) i d = (false, 0x00#8) := by
  by_cases htag : d.tag = .complete
  · rw [readDes_complete i htag, readAcc_invalid h]
  · exact readDes_not_complete i htag _

end

/-- In Complete every field is complete, with its declared length within the capacity (10_state.md R22, R28). -/
theorem filled_eq_len_of_complete {s : State} (hi : s.Inv) (h : s.des.tag = .complete) (X : Field) :
    (accOf s.des X).filled = (accOf s.des X).len.toNat ∧
    (accOf s.des X).len.toNat ≤ (capacityOf s.params X).val := by
  have hrow := (tagInv_iff _).1 hi.2.1
  rw [h] at hrow
  obtain ⟨hA, hB, hC⟩ := hrow
  have hc : isComplete (accOf s.des X) = true := by
    cases X with
    | a => exact hA
    | b => exact hB
    | c => exact hC
  exact ⟨(isComplete_iff.1 hc).2, (accInv_bounds (accInv_accOf hi X)).2⟩

end Sys2Proof.Machine
end

section
/-! PROOFS. `RD` and the handoff of a completed frame, 41_frame_deserializer.md R85, R86 and R92. -/

namespace Sys2Proof.Machine

/-- Settles O33: the read of the field's accumulator in Complete, and an invalid one in every other case. -/
theorem rdReadsACompletedFrame : Obligations.RdReadsACompletedFrame := by
  refine fun f i s => ⟨?_, fun hinvalid => ?_⟩
  · rintro X rfl htag hi hn
    rw [exec_rd, readDes_complete i htag, readAcc_valid hi hn]
    rfl
  · have hread : readDes s.params f i s.des = (false, 0x00#8) := by
      rcases hinvalid with htag | rfl | ⟨X, rfl, hi⟩
      · exact readDes_not_complete i htag f
      · exact readDes_reserved i
      · exact readDes_beyond_filled i hi
    rw [exec_rd, hread]
    rfl

/-- Settles O31: no field is active in an unused code, and it is not Complete. -/
theorem unusedTagCodesAreInert : Obligations.UnusedTagCodesAreInert := by
  intro s hunused
  have hnone := activeField_of_unused hunused
  have hne : s.des.tag ≠ .complete := by
    rcases hunused with h | h | h <;> rw [h] <;> decide
  exact ⟨exec_adv_inactive hnone, fun f i => (rdReadsACompletedFrame f i s).2 (.inl hne),
    fun i t => exec_keeps_inactive_des hnone, _, exec_rst s, rfl⟩

/-- Settles O40: in Complete `filled` is the declared length, so `RD` offers the payload and no byte beyond it. -/
theorem completeFrameIsHandedOff : Obligations.CompleteFrameIsHandedOff := by
  intro s X i hi htag
  obtain ⟨hfilled, hlen⟩ := filled_eq_len_of_complete hi htag X
  obtain ⟨hvalid, hinvalid⟩ := rdReadsACompletedFrame (selectOf X) i s
  refine ⟨fun hlt => ?_, fun hle => ?_, rfl, rfl, rfl, congrArg tagCode htag⟩
  · exact hvalid X rfl htag (by omega) (by omega)
  · exact hinvalid (.inr (.inr ⟨X, rfl, by omega⟩))

end Sys2Proof.Machine
end

section
/-! PROOFS. The Signal and its cycle, 41_frame_deserializer.md R87. -/

namespace Sys2Proof.Machine

theorem signalCode_eq_frameComplete {g : Signal} : signalCode g = 0b01#2 ↔ g = .frameComplete := by
  cases g <;> decide

/-- FrameComplete is the reaction that moves the tag to Complete. -/
theorem reactTo_frameComplete_iff {X : Field} {o : Report} {d : Deserializer} (hX : d.tag = awaitingTag X) :
    (reactTo X o d).2 = .frameComplete ↔ (reactTo X o d).1.tag = .complete := by
  cases o with
  | needsMore => simp [reactTo, hX, awaitingTag_ne_complete]
  | fieldComplete => cases X <;> simp [reactTo, completionSignal, nextTag]
  | lengthInvalid => simp [reactTo, enterError]
  | overfeed => simp [reactTo, enterError]

theorem advanceDes_frameComplete_iff {p : Params} {b : Byte} {d d' : Deserializer} {g : Signal}
    (h : advanceDes p b d = .ok (d', g)) : g = .frameComplete ↔ d.tag ≠ .complete ∧ d'.tag = .complete := by
  rcases advanceDes_cases h with ⟨-, rfl, rfl⟩ | ⟨X, a, o, hactive, -, hr⟩
  · simp
  · have hX := activeField_eq_some.1 hactive
    have hne : d.tag ≠ .complete := hX ▸ awaitingTag_ne_complete X
    have hiff := reactTo_frameComplete_iff (o := o) ((withAcc_tag d X a).trans hX)
    rw [hr] at hiff
    simpa [hne] using hiff

section
variable {w : Word10}

theorem decodeDesCtrl_of_rst (hr : ctrlRst w = true) : decodeDesCtrl w = .rst := if_pos hr

theorem decodeDesCtrl_of_valid (hr : ctrlRst w = false) (hv : ctrlValid w = true) :
    decodeDesCtrl w = .adv (lowByte w) := by
  simp [decodeDesCtrl, hr, hv]

theorem decodeDesCtrl_of_idle (hr : ctrlRst w = false) (hv : ctrlValid w = false) : decodeDesCtrl w = .idle := by
  simp [decodeDesCtrl, hr, hv]

end

/-- Settles O38: by the three operations that a DES_CTRL word selects. -/
theorem signalBelongsToItsCycle : Obligations.SignalBelongsToItsCycle := by
  intro s t l rest hs h
  obtain ⟨m, rest', x, y, hm, hx, -, rfl⟩ := step_cases h
  rw [hs] at hm
  cases hm
  rw [decode_desCtrl_toNat]
  rcases desCycle_cases hx with ⟨hr, rfl⟩ | ⟨hr, hv, d, g, hd, rfl⟩ | ⟨hr, hv, rfl⟩
  · rw [decodeDesCtrl_of_rst hr]
    simp [afterCycle, Deserializer.fresh]
  · rw [decodeDesCtrl_of_valid hr hv]
    have hframe := signalCode_eq_frameComplete.trans (advanceDes_frameComplete_iff hd)
    simpa [afterCycle] using hframe
  · rw [decodeDesCtrl_of_idle hr hv]
    simp [afterCycle]

end Sys2Proof.Machine
end

section
/-! SUPPORT. One cycle of a deserializer line without `RD` (30_encoding.md R70): the DES_CTRL word acts on the
deserializer, and the quiet ports leave the stand-alone accumulator as it was (log entry 19). -/

namespace Sys2Proof.Machine

theorem asmInputs_cons (l : AsmLine) (ls : List AsmLine) :
    asmInputs (l :: ls) = .driven (asmInput l) :: asmInputs ls := rfl

/-- A DES_CTRL word that completes makes the step complete, and the step keeps the stand-alone accumulator. -/
theorem step_des_line {s : State} {op : DesOp} {rest : List CycleInput} {x : Deserializer × Bool × BitVec 2}
    (hs : s.stimulus = .driven (asmInput (.des op)) :: rest)
    (hx : desCycle s.params (desOpWord op) s.des = .ok x) :
    ∃ t, step s = .next t ∧ t.params = s.params ∧ t.des = x.1 ∧ t.acc = s.acc ∧ t.stimulus = rest ∧
      t.desOut.sigValid = x.2.1 ∧ t.desOut.sig = x.2.2 := by
  have hx' : desCycle s.params (asmInput (.des op)).desCtrl s.des = .ok x := hx
  have hacc : accCycle s.params.nAcc (asmInput (.des op)).accCtrl s.acc = .ok (s.acc, false, 0b00#2) :=
    accCycle_idle (show ctrlRst Line.quiet.accCtrl = false by decide)
      (show ctrlValid Line.quiet.accCtrl = false by decide)
  refine ⟨afterCycle s (asmInput (.des op)) rest x (s.acc, false, 0b00#2), ?_, rfl, rfl, rfl, rfl, rfl, rfl⟩
  rw [step_driven hs, hx', hacc]

theorem desCycle_idleWord (p : Params) (d : Deserializer) :
    desCycle p (desOpWord .idle) d = .ok (d, false, 0b00#2) := by
  simp [desCycle, desOpWord]

theorem desCycle_advWord {p : Params} {b : Byte} {d : Deserializer} {r : Deserializer × Signal}
    (h : advanceDes p b d = .ok r) : desCycle p (desOpWord (.adv b)) d = .ok (r.1, true, signalCode r.2) := by
  simp [desCycle, desOpWord, h]

theorem step_adv_line {s : State} {b : Byte} {rest : List CycleInput} {r : Deserializer × Signal}
    (hs : s.stimulus = .driven (asmInput (.des (.adv b))) :: rest) (h : advanceDes s.params b s.des = .ok r) :
    ∃ t, step s = .next t ∧ t.params = s.params ∧ t.des = r.1 ∧ t.acc = s.acc ∧ t.stimulus = rest ∧
      t.desOut.sigValid = true ∧ t.desOut.sig = signalCode r.2 :=
  step_des_line hs (desCycle_advWord h)

end Sys2Proof.Machine
end

section
/-! PROOFS. Waiting, 41_frame_deserializer.md R83 and 70_reset_and_hazards.md R124: an induction over the cycles. -/

namespace Sys2Proof.Machine

theorem run_idle_lines (k : Nat) {s : State} {rest : List CycleInput}
    (hs : s.stimulus = asmInputs (List.replicate k (.des .idle)) ++ rest) :
    ∃ t, Sys2Proof.core.run k s = .next t ∧ t.des = s.des ∧ t.acc = s.acc ∧ t.stimulus = rest := by
  induction k generalizing s with
  | zero => exact ⟨s, rfl, rfl, rfl, hs⟩
  | succ k ih =>
    rw [List.replicate_succ, asmInputs_cons, List.cons_append] at hs
    obtain ⟨t, ht, -, hdes, hacc, hstim, -⟩ := step_des_line hs (desCycle_idleWord _ _)
    obtain ⟨u, hu, hdes', hacc', hstim'⟩ := ih hstim
    exact ⟨u, (run_next ht).trans hu, hdes'.trans hdes, hacc'.trans hacc, hstim'⟩

/-- Settles O53: WAIT stands for IDLE lines alone. -/
theorem waitingChangesNoRegister : Obligations.WaitingChangesNoRegister := by
  intro k s ls rest hexpand hs
  obtain rfl : List.replicate k (.des .idle) = ls := Option.some.inj hexpand
  exact run_idle_lines k hs

end Sys2Proof.Machine
end

section
/-! SUPPORT. One field of a valid frame, byte by byte (41_frame_deserializer.md R90): what its accumulator holds after
`k` of its bytes, and what the machine does meanwhile. -/

namespace Sys2Proof.Machine

/-! ### The accumulator of the field -/

/-- What an accumulator holds after `k` bytes of `FIELD values`: nothing, or the length and the first `k - 1` values. -/
def HoldsField (values : List Byte) (k : Nat) (a : Accumulator) : Prop :=
  match k with
  | 0 => AccEmpty a
  | j + 1 =>
    a.lenSet = true ∧ a.len.toNat = values.length ∧ a.filled = j ∧
    ∀ i < j, values[i]? = some (readCell a.storage i)

/-- The report of byte `k` of `FIELD values`: FieldComplete for the last. -/
def fieldReport (values : List Byte) (k : Nat) : Report :=
  if k = values.length then .fieldComplete else .needsMore

section
variable {n : Capacity} {values : List Byte} {a : Accumulator}

/-- The length byte of a field within the capacity is exact. -/
theorem toNat_lengthByte (hn : values.length ≤ n.val) : (BitVec.ofNat 8 values.length).toNat = values.length := by
  have := n.isLt
  rw [BitVec.toNat_ofNat, Nat.mod_eq_of_lt (by omega)]

theorem feed_lengthByte (ha : HoldsField values 0 a) (hn : values.length ≤ n.val) :
    ∃ a', feedAcc n (BitVec.ofNat 8 values.length) a = .ok (a', fieldReport values 0) ∧ HoldsField values 1 a' := by
  obtain ⟨hl, hf⟩ := ha
  have hbyte := toNat_lengthByte hn
  have hreport : lengthReport (BitVec.ofNat 8 values.length) = fieldReport values 0 := by
    rcases Nat.eq_zero_or_pos values.length with h0 | hpos
    · rw [lengthReport_of_zero (hbyte.trans h0), fieldReport, if_pos h0.symm]
    · rw [lengthReport_of_pos (by omega), fieldReport, if_neg hpos.ne]
  refine ⟨acceptLength (BitVec.ofNat 8 values.length) a, ?_, rfl, hbyte, hf, by simp⟩
  rw [feedAcc_length hl (hbyte.trans_le hn), hreport]

theorem feed_valueByte {j : Nat} {b : Byte} (ha : HoldsField values (j + 1) a) (hb : values[j]? = some b)
    (hn : values.length ≤ n.val) :
    ∃ a', feedAcc n b a = .ok (a', fieldReport values (j + 1)) ∧ HoldsField values (j + 2) a' := by
  obtain ⟨hl, hlen, rfl, hcells⟩ := ha
  obtain ⟨hj, -⟩ := List.getElem?_eq_some_iff.1 hb
  refine ⟨{ a with storage := writeCell a.storage a.filled b, filled := a.filled + 1 }, ?_, hl, hlen, rfl,
    fun i hi => ?_⟩
  · rw [feedAcc_value hl (by omega) (by omega), valueReport, hlen, fieldReport]
  · rcases Nat.lt_succ_iff_lt_or_eq.1 hi with hlt | rfl
    · rw [readCell_writeCell_other _ b hlt.ne, hcells i hlt]
    · rw [readCell_writeCell_same, hb]

/-- Each byte of a field within the capacity is accepted, and the last completes the field. -/
theorem feed_fieldByte {k : Nat} {b : Byte} (ha : HoldsField values k a) (hb : (fieldBytes values)[k]? = some b)
    (hn : values.length ≤ n.val) :
    ∃ a', feedAcc n b a = .ok (a', fieldReport values k) ∧ HoldsField values (k + 1) a' := by
  cases k with
  | zero =>
    cases hb
    exact feed_lengthByte ha hn
  | succ j => exact feed_valueByte ha hb hn

/-- The payload of a field all of whose bytes were fed. -/
theorem HoldsField.payload (h : HoldsField values (1 + values.length) a) :
    a.len.toNat = values.length ∧ a.filled = values.length ∧
    ∀ (j : Nat) (hj : j < values.length), readCell a.storage j = values[j] := by
  rw [Nat.add_comm] at h
  obtain ⟨-, hlen, hfilled, hcells⟩ := h
  refine ⟨hlen, hfilled, fun j hj => ?_⟩
  have hcell := hcells j hj
  rw [List.getElem?_eq_getElem hj] at hcell
  exact (Option.some.inj hcell).symm

end

/-! ### The machine -/

/-- The machine at `t`, after `k` of the bytes of `FIELD values` were presented to field `X` from `s` on, with the
inputs `rest` after them. -/
structure FieldFed (X : Field) (values : List Byte) (rest : List CycleInput) (s : State) (k : Nat) (t : State) :
    Prop where
  params : t.params = s.params
  stimulus : t.stimulus = asmInputs (advLines ((fieldBytes values).drop k)) ++ rest
  tag : t.des.tag = if k ≤ values.length then awaitingTag X else nextTag X
  holds : HoldsField values k (accOf t.des X)
  others : ∀ Y, Y ≠ X → accOf t.des Y = accOf s.des Y
  sigValid : 0 < k → t.desOut.sigValid = true
  sig : 0 < k → t.desOut.sig = if k = 1 + values.length ∧ X = .c then 0b01#2 else 0b00#2

section
variable {X : Field} {values : List Byte} {rest : List CycleInput} {s t : State} {k : Nat}

/-- The tag and the Signal after byte `k` (R80): the field's last byte moves the tag on. -/
theorem reactTo_fieldReport {d : Deserializer} (hk : k ≤ values.length) (hX : d.tag = awaitingTag X) :
    (reactTo X (fieldReport values k) d).1.tag = (if k + 1 ≤ values.length then awaitingTag X else nextTag X) ∧
    signalCode (reactTo X (fieldReport values k) d).2 =
      if k + 1 = 1 + values.length ∧ X = .c then 0b01#2 else 0b00#2 := by
  rcases hk.eq_or_lt with rfl | hlt
  · rw [fieldReport, if_pos rfl, if_neg (by omega)]
    cases X <;> simp [reactTo, completionSignal, signalCode, Nat.add_comm]
  · rw [fieldReport, if_neg hlt.ne, if_pos (by omega), if_neg (by omega)]
    exact ⟨hX, rfl⟩

theorem drop_fieldBytes (hk : k ≤ values.length) :
    ∃ b, (fieldBytes values)[k]? = some b ∧ (fieldBytes values).drop k = b :: (fieldBytes values).drop (k + 1) := by
  have hlt : k < (fieldBytes values).length := by
    rw [fieldBytes, List.length_cons]
    omega
  exact ⟨_, List.getElem?_eq_getElem hlt, List.drop_eq_getElem_cons hlt⟩

theorem FieldFed.step_next (h : FieldFed X values rest s k t) (hk : k ≤ values.length)
    (hn : values.length ≤ (capacityOf s.params X).val) :
    ∃ u, step t = .next u ∧ FieldFed X values rest s (k + 1) u := by
  have hX : t.des.tag = awaitingTag X := by rw [h.tag, if_pos hk]
  obtain ⟨b, hb, hdrop⟩ := drop_fieldBytes hk
  obtain ⟨a, hf, ha⟩ := feed_fieldByte h.holds hb hn
  rw [← h.params] at hf
  have hs := h.stimulus
  rw [hdrop, advLines, List.map_cons, asmInputs_cons, List.cons_append] at hs
  have hd := advanceDes_active (activeField_eq_some.2 hX) hf
  obtain ⟨u, hu, hparams, hdes, -, hstim, hvalid, hsig⟩ := step_adv_line hs hd
  obtain ⟨htag, hcode⟩ := reactTo_fieldReport hk ((withAcc_tag t.des X a).trans hX)
  have hacc : accOf u.des X = a := by rw [hdes, accOf_reactTo, accOf_withAcc_same]
  refine ⟨u, hu, hparams.trans h.params, hstim, hdes ▸ htag, hacc ▸ ha, fun Y hY => ?_, fun _ => hvalid,
    fun _ => hsig.trans hcode⟩
  rw [hdes, accOf_reactTo, accOf_withAcc_other _ _ hY, h.others Y hY]

/-- All bytes of the field are presented: the inputs after them are next, and the tag has moved on. -/
theorem FieldFed.done (h : FieldFed X values rest s (1 + values.length) t) :
    t.stimulus = rest ∧ t.des.tag = nextTag X := by
  have hdrop : (fieldBytes values).drop (1 + values.length) = [] :=
    List.drop_eq_nil_of_le (by rw [fieldBytes, List.length_cons]; omega)
  have hs := h.stimulus
  rw [hdrop] at hs
  exact ⟨hs, by rw [h.tag, if_neg (by omega)]⟩

end

/-! ### The run of a field -/

/-- From `s` the machine runs through the bytes of `FIELD values` for field `X`, to `u`. -/
structure FieldRun (X : Field) (values : List Byte) (rest : List CycleInput) (s u : State) : Prop where
  during : ∀ k ≤ 1 + values.length, ∃ t, Sys2Proof.core.run k s = .next t ∧ FieldFed X values rest s k t
  run : Sys2Proof.core.run (1 + values.length) s = .next u
  fed : FieldFed X values rest s (1 + values.length) u

section
variable {X : Field} {values : List Byte} {rest : List CycleInput} {s u : State}

/-- A field within the capacity is run through from an empty accumulator, by induction on the bytes presented. -/
theorem exists_fieldRun (hstim : s.stimulus = asmInputs (advLines (fieldBytes values)) ++ rest)
    (htag : s.des.tag = awaitingTag X) (hempty : AccEmpty (accOf s.des X))
    (hn : values.length ≤ (capacityOf s.params X).val) : ∃ u, FieldRun X values rest s u := by
  have during : ∀ k ≤ 1 + values.length,
      ∃ t, Sys2Proof.core.run k s = .next t ∧ FieldFed X values rest s k t := by
    intro k hk
    induction k with
    | zero => exact ⟨s, rfl, rfl, hstim, htag, hempty, fun _ _ => rfl, by simp, by simp⟩
    | succ k ih =>
      obtain ⟨t, ht, hfed⟩ := ih (by omega)
      obtain ⟨v, hv, hfed'⟩ := hfed.step_next (by omega) hn
      exact ⟨v, (run_add ht).trans (run_one hv), hfed'⟩
  obtain ⟨u, hu, hfed⟩ := during _ le_rfl
  exact ⟨u, during, hu, hfed⟩

/-- The run of the next field begins where this one ends. -/
theorem FieldRun.exists_next {Y : Field} {values' : List Byte} {rest' : List CycleInput}
    (h : FieldRun X values (asmInputs (advLines (fieldBytes values')) ++ rest') s u) (hY : nextTag X = awaitingTag Y)
    (hne : Y ≠ X) (hempty : AccEmpty (accOf s.des Y)) (hn : values'.length ≤ (capacityOf s.params Y).val) :
    ∃ v, FieldRun Y values' rest' u v := by
  obtain ⟨hstim, htag⟩ := h.fed.done
  exact exists_fieldRun hstim (htag.trans hY) (by rwa [h.fed.others Y hne]) (by rwa [h.fed.params])

end

end Sys2Proof.Machine
end

section
/-! PROOFS. A whole valid frame, 41_frame_deserializer.md R90 and R91: its three fields one after the other. -/

namespace Sys2Proof.Machine

theorem asmInputs_frameBytes (as bs cs : List Byte) (rest : List CycleInput) :
    asmInputs (advLines (frameBytes as bs cs)) ++ rest =
      asmInputs (advLines (fieldBytes as)) ++ (asmInputs (advLines (fieldBytes bs)) ++
        (asmInputs (advLines (fieldBytes cs)) ++ rest)) := by
  simp only [frameBytes, advLines, asmInputs, List.map_append, List.append_assoc]

/-- The runs of a valid frame's three fields, from the reset state on. -/
theorem exists_frame_runs {s : State} {as bs cs : List Byte} {rest : List CycleInput} (hs : s.des = State.reset.des)
    (ha : as.length ≤ s.params.nA.val) (hb : bs.length ≤ s.params.nB.val) (hc : cs.length ≤ s.params.nC.val)
    (hstim : s.stimulus = asmInputs (advLines (frameBytes as bs cs)) ++ rest) :
    ∃ sB sC u,
      FieldRun .a as (asmInputs (advLines (fieldBytes bs)) ++ (asmInputs (advLines (fieldBytes cs)) ++ rest)) s sB ∧
      FieldRun .b bs (asmInputs (advLines (fieldBytes cs)) ++ rest) sB sC ∧ FieldRun .c cs rest sC u := by
  have hempty : ∀ X, AccEmpty (accOf s.des X) := fun X => by
    rw [hs, show State.reset.des = .fresh from rfl, accOf_fresh]
    exact ⟨rfl, rfl⟩
  rw [asmInputs_frameBytes] at hstim
  obtain ⟨sB, hA⟩ := exists_fieldRun (X := .a) hstim (by rw [hs]; rfl) (hempty .a) ha
  obtain ⟨sC, hB⟩ := hA.exists_next (Y := .b) rfl (by decide) (hempty .b) hb
  have hemptyC : AccEmpty (accOf sB.des .c) := by
    rw [hA.fed.others .c (by decide)]
    exact hempty .c
  obtain ⟨u, hC⟩ := hB.exists_next (Y := .c) rfl (by decide) hemptyC (by rwa [hA.fed.params])
  exact ⟨sB, sC, u, hA, hB, hC⟩

/-- What the deserializer shows after `k` bytes of a valid frame whose payloads have `la`, `lb` and `lc` bytes (R90). -/
def FrameShown (la lb lc k : Nat) (t : State) : Prop :=
  t.des.tag =
    (if k ≤ la then Tag.awaitingA
     else if k ≤ 1 + la + lb then .awaitingB
     else if k < 3 + la + lb + lc then .awaitingC
     else .complete) ∧
  (0 < k → t.desOut.sigValid = true ∧ t.desOut.sig = if k = 3 + la + lb + lc then 0b01#2 else 0b00#2)

section
variable {values : List Byte} {rest : List CycleInput} {s t : State} {j : Nat} (la lb lc : Nat)

theorem FieldFed.frameShown_a (h : FieldFed .a values rest s j t) (hj : j ≤ 1 + values.length) :
    FrameShown values.length lb lc j t := by
  refine ⟨?_, fun hpos => ⟨h.sigValid hpos, ?_⟩⟩
  · rw [h.tag]
    rcases Nat.lt_or_ge values.length j with hlt | hle
    · simp only [if_neg hlt.not_ge, if_pos (show j ≤ 1 + values.length + lb by omega), nextTag]
    · simp only [if_pos hle, awaitingTag]
  · rw [h.sig hpos, if_neg (by simp), if_neg (by omega)]

theorem FieldFed.frameShown_b (h : FieldFed .b values rest s j t) (hpos : 0 < j) (hj : j ≤ 1 + values.length) :
    FrameShown la values.length lc (1 + la + j) t := by
  refine ⟨?_, fun _ => ⟨h.sigValid hpos, ?_⟩⟩
  · have hA : ¬ 1 + la + j ≤ la := by omega
    rw [h.tag, if_neg hA]
    rcases Nat.lt_or_ge values.length j with hlt | hle
    · simp only [if_neg hlt.not_ge, if_neg (show ¬ 1 + la + j ≤ 1 + la + values.length by omega),
        if_pos (show 1 + la + j < 3 + la + values.length + lc by omega), nextTag]
    · simp only [if_pos hle, if_pos (show 1 + la + j ≤ 1 + la + values.length by omega), awaitingTag]
  · rw [h.sig hpos, if_neg (by simp), if_neg (by omega)]

theorem FieldFed.frameShown_c (h : FieldFed .c values rest s j t) (hpos : 0 < j) (hj : j ≤ 1 + values.length) :
    FrameShown la lb values.length (1 + la + (1 + lb + j)) t := by
  refine ⟨?_, fun _ => ⟨h.sigValid hpos, ?_⟩⟩
  · have hA : ¬ 1 + la + (1 + lb + j) ≤ la := by omega
    have hB : ¬ 1 + la + (1 + lb + j) ≤ 1 + la + lb := by omega
    have hC : 1 + la + (1 + lb + j) < 3 + la + lb + values.length ↔ j ≤ values.length := by omega
    simp only [h.tag, if_neg hA, if_neg hB, hC, awaitingTag, nextTag]
  · rw [h.sig hpos]
    have hlast : 1 + la + (1 + lb + j) = 3 + la + lb + values.length ↔ j = 1 + values.length := by omega
    simp only [hlast, and_true]

end

/-- Settles O51: byte `k` of the frame is a byte of one of its three fields, whose runs follow one another. -/
theorem validFrameReachesComplete : Obligations.ValidFrameReachesComplete := by
  intro s as bs cs rest hs ha hb hc hstim
  obtain ⟨sB, sC, u, hA, hB, hC⟩ := exists_frame_runs hs ha hb hc hstim
  refine ⟨fun k hk => ?_, u, ?_, hC.fed.done.1, ?_, ?_, hC.fed.holds.payload⟩
  · rcases Nat.lt_or_ge (1 + as.length) k with hkA | hkA
    · rcases Nat.lt_or_ge (1 + as.length + (1 + bs.length)) k with hkB | hkB
      · obtain ⟨j, rfl⟩ : ∃ j, k = 1 + as.length + (1 + bs.length + j) := ⟨k - (2 + as.length + bs.length), by omega⟩
        obtain ⟨t, ht, hfed⟩ := hC.during j (by omega)
        exact ⟨t, (run_add hA.run).trans ((run_add hB.run).trans ht), hfed.frameShown_c _ _ (by omega) (by omega)⟩
      · obtain ⟨j, rfl⟩ := Nat.exists_eq_add_of_le hkA.le
        obtain ⟨t, ht, hfed⟩ := hB.during j (by omega)
        exact ⟨t, (run_add hA.run).trans ht, hfed.frameShown_b _ _ (by omega) (by omega)⟩
    · obtain ⟨t, ht, hfed⟩ := hA.during k hkA
      exact ⟨t, ht, hfed.frameShown_a _ _ hkA⟩
  · have htotal : 3 + as.length + bs.length + cs.length =
        1 + as.length + (1 + bs.length + (1 + cs.length)) := by omega
    rw [htotal]
    exact (run_add hA.run).trans ((run_add hB.run).trans hC.run)
  · have hkept : u.des.accA = sB.des.accA := (hC.fed.others .a (by decide)).trans (hB.fed.others .a (by decide))
    rw [hkept]
    exact hA.fed.holds.payload
  · have hkept : u.des.accB = sC.des.accB := hC.fed.others .b (by decide)
    rw [hkept]
    exact hB.fed.holds.payload

end Sys2Proof.Machine
end

section
/-! SUPPORT. Malformed in the terms of its statements (60_exceptions.md R94, R97 to R99): the feed it answers, the state
it leaves, and the field it names. -/

namespace Sys2Proof.Machine

theorem exec_adv_cases {b : Byte} {s t : State} (h : exec (.adv b) s = .next t) :
    (activeField s.des.tag = none ∧ t = s.driveSig .alreadyDone) ∨
    ∃ X a o, s.des.tag = awaitingTag X ∧ feedAcc (capacityOf s.params X) b (accOf s.des X) = .ok (a, o) ∧
      t = s.afterFeed X a o := by
  cases hactive : activeField s.des.tag with
  | none =>
    rw [exec_adv_inactive hactive] at h
    cases h
    exact .inl ⟨rfl, rfl⟩
  | some X =>
    have hX := activeField_eq_some.1 hactive
    obtain ⟨a, o, hf, ht⟩ := exec_adv_active_next hX h
    exact .inr ⟨X, a, o, hX, hf, ht⟩

/-- Malformed answers a byte that the active accumulator did not take (R80). -/
theorem afterFeed_malformed_iff (s : State) (X : Field) (a : Accumulator) (o : Report) :
    (s.afterFeed X a o).desOut.sig = 0b10#2 ↔ RefusedCode (reportCode o) := by
  cases o with
  | needsMore => simp [afterFeed_needsMore, State.answer, RefusedCode, reportCode]
  | fieldComplete => cases X <;> simp [afterFeed_fieldComplete, State.answer, RefusedCode, reportCode]
  | lengthInvalid => exact iff_of_true rfl (.inl rfl)
  | overfeed => exact iff_of_true rfl (.inr rfl)

/-- The state after a Malformed step (R97, R98). -/
def State.afterMalformed (s : State) : State :=
  { s with
    des := { s.des with tag := .error }
    desOut := { s.desOut with sigValid := true, sig := 0b10#2 } }

theorem afterFeed_of_refused (s : State) (X : Field) {o : Report} (ho : RefusedCode (reportCode o)) :
    s.afterFeed X (accOf s.des X) o = s.afterMalformed := by
  cases o with
  | needsMore => exact absurd ho (AcceptedCode.not_refused (.inl rfl))
  | fieldComplete => exact absurd ho (AcceptedCode.not_refused (.inr rfl))
  | lengthInvalid => rw [afterFeed_lengthInvalid, State.answer, withAcc_accOf, State.afterMalformed]
  | overfeed => rw [afterFeed_overfeed, State.answer, withAcc_accOf, State.afterMalformed]

/-- An `ADV` that reports Malformed fed a byte that was not taken, and leaves the registers but the tag (R98). -/
theorem exec_adv_malformed {b : Byte} {s t : State} (h : exec (.adv b) s = .next t) (hsig : t.desOut.sig = 0b10#2) :
    t = s.afterMalformed ∧ ∃ X a o, s.des.tag = awaitingTag X ∧
      feedAcc (capacityOf s.params X) b (accOf s.des X) = .ok (a, o) ∧ RefusedCode (reportCode o) := by
  rcases exec_adv_cases h with ⟨-, rfl⟩ | ⟨X, a, o, hX, hf, rfl⟩
  · exact absurd hsig (by simp [signalCode])
  · have ho := (afterFeed_malformed_iff s X a o).1 hsig
    obtain rfl := feedAcc_refused_writes_nothing hf ho
    exact ⟨afterFeed_of_refused s X ho, X, _, o, hX, hf, ho⟩

/-- While the accumulator is not complete, the bytes it does not take are the length bytes above its capacity (R94). -/
theorem feedAcc_refused {n : Capacity} {b : Byte} {a a' : Accumulator} {o : Report} (hc : isComplete a = false)
    (h : feedAcc n b a = .ok (a', o)) (ho : RefusedCode (reportCode o)) : a.lenSet = false ∧ n.val < b.toNat := by
  rcases feedAcc_cases h with ⟨hl, hb, -, -⟩ | ⟨-, -, -, rfl⟩ | ⟨hl, hf, -, -⟩ | ⟨-, -, -, -, rfl⟩
  · exact ⟨hl, hb⟩
  · exact absurd ho (acceptedCode_lengthReport b).not_refused
  · exact absurd hf (isComplete_eq_false.1 hc hl)
  · exact absurd ho (acceptedCode_valueReport _ _).not_refused

theorem awaitingTag_injective : Function.Injective awaitingTag := by
  intro X Y h
  have hXY := congrArg activeField h
  rwa [activeField_awaitingTag, activeField_awaitingTag, Option.some.injEq] at hXY

/-- The fields before the active one are complete, so their lengths are set (10_state.md R28): the active field, while
its length is unset, is the first such. -/
theorem firstUnsetField_of_awaiting {d : Deserializer} {X : Field} (hd : TagInv d) (hX : d.tag = awaitingTag X)
    (hl : (accOf d X).lenSet = false) : firstUnsetField (desStatus d) = some X := by
  rw [tagInv_iff, hX] at hd
  cases X with
  | a => exact if_pos hl
  | b =>
    obtain ⟨hcA, -, -⟩ := hd
    have hA := (isComplete_iff.1 hcA).1
    have hB : d.accB.lenSet = false := hl
    simp [firstUnsetField, desStatus, hA, hB]
  | c =>
    obtain ⟨hcA, hcB, -⟩ := hd
    have hA := (isComplete_iff.1 hcA).1
    have hB := (isComplete_iff.1 hcB).1
    have hC : d.accC.lenSet = false := hl
    simp [firstUnsetField, desStatus, hA, hB, hC]

end Sys2Proof.Machine
end

section
/-! PROOFS. Malformed, 60_exceptions.md R94 and R97 to R99. -/

namespace Sys2Proof.Machine

/-- Settles O35: the byte was not taken, so the tag alone is written, and Error is not Complete. -/
theorem malformedWritesOnlyTheTag : Obligations.MalformedWritesOnlyTheTag := by
  intro b s t h hsig
  obtain ⟨rfl, -⟩ := exec_adv_malformed h hsig
  have hne : s.afterMalformed.des.tag ≠ .complete := by simp [State.afterMalformed]
  exact ⟨rfl, fun f i => ⟨_, (rdReadsACompletedFrame f i _).2 (.inl hne), rfl, rfl⟩⟩

/-- Settles O36: the active accumulator is not complete, so the byte it did not take is an oversized length. -/
theorem malformedExactlyForAnOversizedLength : Obligations.MalformedExactlyForAnOversizedLength := by
  intro b s t hi h
  constructor
  · intro hsig
    obtain ⟨-, X, a, o, hX, hf, ho⟩ := exec_adv_malformed h hsig
    exact ⟨X, hX, feedAcc_refused (active_not_complete hi hX) hf ho⟩
  · rintro ⟨X, hX, hl, hb⟩
    rw [exec_adv_active hX (feedAcc_rejected hl hb)] at h
    cases h
    exact (afterFeed_malformed_iff ..).2 (.inl rfl)

/-- Settles O41: the rejected field's length is still unset, and the status outputs show the accumulators as they
were. -/
theorem rejectedFieldIsRecoverable : Obligations.RejectedFieldIsRecoverable := by
  intro b s t X hi hX h hsig
  obtain ⟨Y, hY, hl, -⟩ := (malformedExactlyForAnOversizedLength b s t hi h).1 hsig
  obtain rfl := awaitingTag_injective (hX.symm.trans hY)
  obtain ⟨rfl, -⟩ := exec_adv_malformed h hsig
  have hfield : firstUnsetField (desStatus s.des) = some X := firstUnsetField_of_awaiting hi.2.1 hX hl
  exact hfield

end Sys2Proof.Machine
end

section
/-! PROOFS. `RST` and the terminal states over whole cycles, 60_exceptions.md R102 and R105. -/

namespace Sys2Proof.Machine

/-- `step_cases` for a known next line. -/
theorem step_driven_next {s t : State} {l : Line} {rest : List CycleInput} (hs : s.stimulus = .driven l :: rest)
    (h : step s = .next t) :
    ∃ x y, desCycle s.params l.desCtrl s.des = .ok x ∧ accCycle s.params.nAcc l.accCtrl s.acc = .ok y ∧
      t = afterCycle s l rest x y := by
  obtain ⟨m, rest', x, y, hm, hx, hy, ht⟩ := step_cases h
  rw [hs] at hm
  cases hm
  exact ⟨x, y, hx, hy, ht⟩

theorem desCycle_rst {p : Params} {w : Word10} {d : Deserializer} (hr : ctrlRst w = true) :
    desCycle p w d = .ok (.fresh, false, 0b00#2) := if_pos hr

/-- Settles O15: a word with `rst` leaves the reset registers whatever its other bits are, and in the closed form of a
cycle the read outputs name no control word. -/
theorem rstTakesPriorityOverAByte : Obligations.RstTakesPriorityOverAByte := by
  intro s t l rest hs h
  obtain ⟨x, y, hx, hy, rfl⟩ := step_driven_next hs h
  refine ⟨fun hr => ?_, fun hr => ?_, fun w v t' h' => ?_⟩
  · rw [desCycle_rst hr] at hx
    cases hx
    exact ⟨rfl, rfl, rfl⟩
  · rw [accCycle_rst hr] at hy
    cases hy
    exact ⟨rfl, rfl, rfl⟩
  · obtain ⟨x', y', -, -, rfl⟩ := step_driven_next rfl h'
    exact ⟨rfl, rfl, rfl, rfl⟩

theorem desCycle_keeps_inactive {p : Params} {w : Word10} {d : Deserializer} {x : Deserializer × Bool × BitVec 2}
    (hd : activeField d.tag = none) (hr : ctrlRst w = false) (h : desCycle p w d = .ok x) : x.1 = d := by
  rcases desCycle_cases h with ⟨hrst, -⟩ | ⟨-, -, d', g, hadv, rfl⟩ | ⟨-, -, rfl⟩
  · rw [hr] at hrst
    cases hrst
  · rw [advanceDes_inactive hd] at hadv
    cases hadv
    rfl
  · rfl

/-- A run that completes and is not over made a step that completed. -/
theorem run_succ_next {k : Nat} {s t : State} (h : Sys2Proof.core.run (k + 1) s = .next t) :
    ∃ u, step s = .next u ∧ Sys2Proof.core.run k u = .next t := by
  cases hs : step s with
  | next u => exact ⟨u, rfl, (run_next hs).symm.trans h⟩
  | fault f => exact absurd ((run_fault hs).symm.trans h) (by simp)
  | refused r => exact absurd ((run_refused hs).symm.trans h) (by simp)

/-- Over any number of cycles without `rst`, a deserializer with no active field keeps every register. -/
theorem run_keeps_inactive_des {k : Nat} {s t : State} (hd : activeField s.des.tag = none)
    (hrst : ∀ l, CycleInput.driven l ∈ s.stimulus.take k → ctrlRst l.desCtrl = false)
    (h : Sys2Proof.core.run k s = .next t) : t.des = s.des := by
  induction k generalizing s with
  | zero =>
    cases h
    rfl
  | succ k ih =>
    obtain ⟨u, hu, hrun⟩ := run_succ_next h
    obtain ⟨l, rest, x, y, hs, hx, -, rfl⟩ := step_cases hu
    rw [hs, List.take_succ_cons] at hrst
    have hkept : x.1 = s.des := desCycle_keeps_inactive hd (hrst l List.mem_cons_self) hx
    have hinactive : activeField x.1.tag = none := by rw [hkept, hd]
    have hrest : t.des = x.1 := ih hinactive (fun m hm => hrst m (List.mem_cons_of_mem _ hm)) hrun
    exact hrest.trans hkept

/-- Settles O52: no field is active in Complete and in Error. -/
theorem onlyRstLeavesATerminalState : Obligations.OnlyRstLeavesATerminalState :=
  fun _ _ _ hterm hrst h => run_keeps_inactive_des (activeField_of_terminal hterm) hrst h

end Sys2Proof.Machine
end

section
/-! PROOFS. The step's inputs, 70_reset_and_hazards.md R125 and R128, and the first reset cycle, 10_state.md R36. -/

namespace Sys2Proof.Machine

/-- Settles O10: by the step's answer to an empty stimulus and to an undefined input. -/
theorem noStepWithoutADefinedInput : Obligations.NoStepWithoutADefinedInput :=
  fun _ => ⟨step_nil, fun _ => step_undefined⟩

/-- A cycle with `rst` of both blocks completes from every state, to the reset registers (10_state.md R34, R35). -/
theorem step_rst_both {s : State} {l : Line} {rest : List CycleInput} (hs : s.stimulus = .driven l :: rest)
    (hdes : ctrlRst l.desCtrl = true) (hacc : ctrlRst l.accCtrl = true) :
    step s = .next (afterCycle s l rest (.fresh, false, 0b00#2) (.empty, false, 0b00#2)) := by
  rw [step_driven hs, desCycle_rst hdes, accCycle_rst hacc]

/-- Settles O14: a power-on state is a state like another. -/
theorem oneResetCycleAfterPowerOn : Obligations.OneResetCycleAfterPowerOn :=
  fun _ _ _ hdes hacc => ⟨_, step_rst_both rfl hdes hacc, rfl, rfl, rfl, rfl, rfl⟩

end Sys2Proof.Machine
end

section
/-! PROOFS. When a completed frame can be read, 70_reset_and_hazards.md R116 and R120. -/

namespace Sys2Proof.Machine

theorem decodeDesRd_rdWord (f : FieldSel) (i : Byte) : decodeDesRd (rdWord f i) = .rd f i := by
  rw [decodeDesRd, rdFieldBits_rdWord, lowByte_rdWord]

/-- A cycle's read outputs are those of the line's `RD` on the state before the edge (20_memory.md R49). -/
theorem step_shows_read {s t u : State} {l : Line} {rest : List CycleInput} (hs : s.stimulus = .driven l :: rest)
    (h : step s = .next t) (hu : exec (decodeDesRd l.desRd) s = .next u) :
    t.desOut.rdValid = u.desOut.rdValid ∧ t.desOut.rdData = u.desOut.rdData := by
  obtain ⟨-, ⟨v, hv, hread⟩, -⟩ := everyOperationSeesThePreEdgeState s t l rest hs h
  rw [hu] at hv
  cases hv
  exact hread

/-- Settles O39: FrameComplete is the move to Complete, so the cycle's own read finds another tag, and the next
cycle's finds Complete; an `RST` cycle's read finds the frame that its edge clears. -/
theorem frameIsReadableFromTheNextCycle : Obligations.FrameIsReadableFromTheNextCycle := by
  intro s t l rest hi hs h
  refine ⟨fun hsig => ?_, fun X i htag hrst hrd hlt => ?_⟩
  · obtain ⟨-, -, hframe⟩ := signalBelongsToItsCycle s t l rest hs h
    obtain ⟨hbefore, hafter⟩ := hframe.1 hsig
    have hinvalid := (rdReadsACompletedFrame (.ofCode (rdFieldBits l.desRd)) (lowByte l.desRd) s).2 (.inl hbefore)
    refine ⟨(step_shows_read hs h hinvalid).1, fun X i hlt => ?_⟩
    obtain ⟨hread, -⟩ := completeFrameIsHandedOff t X i (stepKeepsTheInvariants s t hi h) hafter
    exact ⟨_, hread hlt, rfl, rfl⟩
  · obtain ⟨hreset, -⟩ := rstTakesPriorityOverAByte s t l rest hs h
    obtain ⟨hread, -⟩ := completeFrameIsHandedOff s X i hi htag
    have hexec := hread hlt
    rw [← decodeDesRd_rdWord, ← hrd] at hexec
    exact ⟨(hreset hrst).1, step_shows_read hs h hexec⟩

end Sys2Proof.Machine
end

section
/-! PROOFS. The success of a run, 70_reset_and_hazards.md R128: FrameComplete leaves no field active, and until `RST`
no byte can then be reported Malformed. -/

namespace Sys2Proof.Machine

theorem fetchLine_driven {s : State} {l : Line} {rest : List CycleInput} (hs : s.stimulus = .driven l :: rest) :
    fetchLine s = .ok (l, { s with stimulus := rest }) := by
  rw [fetchLine, hs]

/-- What is observed of a run is nothing, or its first cycle and then what is observed of the rest. -/
theorem observe_succ_cases (k : Nat) (s : State) :
    observe (k + 1) s = [] ∨
    ∃ l rest t, s.stimulus = .driven l :: rest ∧ step s = .next t ∧
      observe (k + 1) s = (l, t.desOut) :: observe k t := by
  cases h : step s with
  | next t =>
    obtain ⟨l, rest, -, -, hs, -⟩ := step_cases h
    exact .inr ⟨l, rest, t, hs, rfl, by simp only [observe, fetchLine_driven hs, h]⟩
  | fault f => exact .inl (by simp [observe, h])
  | refused r => exact .inl (by simp [observe, h])

theorem reports_eq_true {g : Signal} {o : DesOut} :
    reports g o = true ↔ o.sigValid = true ∧ o.sig = signalCode g := by
  simp [reports]

theorem tag_of_reported_frame {s t : State} {l : Line} {rest : List CycleInput} (hs : s.stimulus = .driven l :: rest)
    (h : step s = .next t) (hg : reports .frameComplete t.desOut = true) : t.des.tag = .complete := by
  obtain ⟨-, -, hframe⟩ := signalBelongsToItsCycle s t l rest hs h
  exact (hframe.1 (reports_eq_true.1 hg).2).2

/-- While no field is active, a cycle reports AlreadyDone or nothing (41_frame_deserializer.md R82 to R84). -/
theorem desCycle_inactive_not_malformed {p : Params} {w : Word10} {d : Deserializer}
    {x : Deserializer × Bool × BitVec 2} (hd : activeField d.tag = none) (h : desCycle p w d = .ok x) :
    x.2.2 ≠ signalCode .malformed := by
  rcases desCycle_cases h with ⟨-, rfl⟩ | ⟨-, -, d', g, hadv, rfl⟩ | ⟨-, -, rfl⟩
  · simp [signalCode]
  · rw [advanceDes_inactive hd] at hadv
    cases hadv
    simp [signalCode]
  · simp [signalCode]

theorem noMalformedBeforeRst_of_inactive (k : Nat) {s : State} (hd : activeField s.des.tag = none) :
    noMalformedBeforeRst (observe k s) = true := by
  induction k generalizing s with
  | zero => rfl
  | succ k ih =>
    rcases observe_succ_cases k s with hnil | ⟨l, rest, t, hs, ht, hobs⟩
    · rw [hnil, noMalformedBeforeRst]
    · rw [hobs, noMalformedBeforeRst]
      cases hr : ctrlRst l.desCtrl with
      | true => rfl
      | false =>
        obtain ⟨x, y, hx, -, rfl⟩ := step_driven_next hs ht
        have hquiet : reports .malformed (afterCycle s l rest x y).desOut = false :=
          Bool.eq_false_iff.2 fun hg => desCycle_inactive_not_malformed hd hx (reports_eq_true.1 hg).2
        have hkept : (afterCycle s l rest x y).des = s.des := desCycle_keeps_inactive hd hr hx
        rw [hquiet, ih (by rw [hkept, hd])]
        rfl

/-- Settles O54: by induction over the cycles; the one that reports FrameComplete enters Complete. -/
theorem reportedFrameSucceeds : Obligations.ReportedFrameSucceeds := by
  intro k
  induction k with
  | zero => simp [observe]
  | succ k ih =>
    rintro s ⟨q, hq, hg⟩
    rcases observe_succ_cases k s with hnil | ⟨l, rest, t, hs, ht, hobs⟩
    · simp [hnil] at hq
    · rw [hobs, List.mem_cons] at hq
      rw [hobs, frameSucceeds, Bool.or_eq_true, Bool.and_eq_true]
      rcases hq with rfl | hlater
      · have hnone := activeField_of_terminal (.inl (tag_of_reported_frame hs ht hg))
        exact .inl ⟨hg, noMalformedBeforeRst_of_inactive k hnone⟩
      · exact .inr (ih t ⟨q, hlater, hg⟩)

end Sys2Proof.Machine
end
